-- ==== Sys2Proof/Word.lean ====
section
/-! DEFINITION. The two widths of XSCORE: the 64-bit word every state word, operand, constant and output has
(00_scope.md R6, R8), and the 8-bit command word (30_encoding.md R70). Arithmetic on `Word` is `BitVec`'s own, which is
R9's: `^^^ &&& ||| ~~~ <<< >>>`, and `+` and `*` modulo 2^64. -/

namespace Sys2Proof

/-- An unsigned 64-bit integer, `u64` of R8. Bit 0 is the least significant bit (R7). -/
abbrev Word := BitVec 64

/-- A command word `cmd[7:0]` (R70). -/
abbrev CmdWord := BitVec 8

end Sys2Proof
end

