-- ==== Sys2Proof/Syntax.lean ====
section
/-! DEFINITION. The commands of XSCORE. `Command` is what the command port carries (30_encoding.md R70): a command word
and four operand words. `Instr` is the decoded command, one constructor per row of spec/opcode_table.json, with the
operand words it reads (R72, R74). -/

namespace Sys2Proof

/-- What the host offers on the command port and XSCORE samples at acceptance: `cmd[7:0]` and `din0` to `din3`
(R70, 20_memory.md R52). -/
structure Command where
  word : CmdWord
  din0 : Word
  din1 : Word
  din2 : Word
  din3 : Word
deriving DecidableEq, Repr

/-- The engine a command addresses (R71). -/
inductive Engine where
  /-- Generator-256, xoshiro256**: `E = 0`. -/
  | g256
  /-- Generator-128, xoroshiro128**: `E = 1`. -/
  | g128
deriving DecidableEq, Repr

/-- The 20 commands of `XSCORE-CMD` v1 (R75), each with the operand words it reads in `din0`, `din1`, … order (R74).
No command has an immediate, and every operand is a whole 64-bit word. -/
inductive Instr where
  /-- 0x00, R134: produce the next value of G256. -/
  | next256
  /-- 0x01, R141: advance G256 by the jump distance. -/
  | jump256
  /-- 0x02, R143: advance G256 by the long-jump distance. -/
  | ljump256
  /-- 0x03, R146: load four words, then jump once. -/
  | loadj256 (w0 w1 w2 w3 : Word)
  /-- 0x04, R145: load four words, no jump. -/
  | load256 (w0 w1 w2 w3 : Word)
  /-- 0x05, R150: construct from one 64-bit seed, then jump once. -/
  | seedc256 (s0 : Word)
  /-- 0x06, R152: reseed from one 64-bit seed, no jump. -/
  | seedm256 (s0 : Word)
  /-- 0x07, R155: default construction from the entropy source, no jump. -/
  | seede256
  /-- 0x08, R160: the minimum output value. -/
  | rdmin256
  /-- 0x09, R161: the maximum output value. -/
  | rdmax256
  /-- 0x80, R184: produce the next value of G128. -/
  | next128
  /-- 0x81, R191: advance G128 by the jump distance. -/
  | jump128
  /-- 0x82, R193: advance G128 by the long-jump distance. -/
  | ljump128
  /-- 0x83, R196: load two words, then jump once. -/
  | loadj128 (w0 w1 : Word)
  /-- 0x84, R195: load two words, no jump. -/
  | load128 (w0 w1 : Word)
  /-- 0x85, R200: construct from one 64-bit seed, then jump once. -/
  | seedc128 (s0 : Word)
  /-- 0x86, R202: reseed from one 64-bit seed, no jump. -/
  | seedm128 (s0 : Word)
  /-- 0x87, R205: default construction from the entropy source, no jump. -/
  | seede128
  /-- 0x88, R210: the minimum output value. -/
  | rdmin128
  /-- 0x89, R211: the maximum output value. -/
  | rdmax128
deriving DecidableEq, Repr

/-- The engine a command addresses (R71: "every command addresses exactly one engine"). -/
def Instr.engine : Instr → Engine
  | .next256 => .g256
  | .jump256 => .g256
  | .ljump256 => .g256
  | .loadj256 _ _ _ _ => .g256
  | .load256 _ _ _ _ => .g256
  | .seedc256 _ => .g256
  | .seedm256 _ => .g256
  | .seede256 => .g256
  | .rdmin256 => .g256
  | .rdmax256 => .g256
  | .next128 => .g128
  | .jump128 => .g128
  | .ljump128 => .g128
  | .loadj128 _ _ => .g128
  | .load128 _ _ => .g128
  | .seedc128 _ => .g128
  | .seedm128 _ => .g128
  | .seede128 => .g128
  | .rdmin128 => .g128
  | .rdmax128 => .g128

end Sys2Proof
end

