-- ==== Sys2Proof/WellFormed.lean ====
section
/-! DEFINITION. Which command words are legal (30_encoding.md R70, R73, R78). The check is of the command word alone: no
operand value is ever ill-formed ("no operand value is ever an error", 60_exceptions.md R231, R238), so every term of
`Instr` is a well-formed instruction and there is no check on it. -/

namespace Sys2Proof

/-- The reserved field `RSV = c[6:4]` is `000` (R73). -/
def rsvIsZero (c : CmdWord) : Bool := c.extractLsb' 4 3 == 0#3

/-- The operation field `OP = c[3:0]` is one of the ten operations `0x0` to `0x9` (R72). -/
def opIsDefined (c : CmdWord) : Bool := (c.extractLsb' 0 4).toNat < 0xA

/-- A legal command word: one of the 20 of R75. -/
def legalWord (c : CmdWord) : Bool := rsvIsZero c && opIsDefined c

end Sys2Proof
end

