-- ==== Sys2Proof/Decode.lean ====
section
/-! DEFINITION. The decoder of a command (30_encoding.md R77), total on every command word and rejecting by name, and
the encoder written from the same map (R75). -/

namespace Sys2Proof

/-- Why a command word is illegal. Either way `ILLEGAL_CMD` is raised (R78); the two names only say which check of R77
refused it. -/
inductive DecodeReject where
  /-- `RSV != 000`, whatever `E` and `OP` hold (R73). -/
  | reservedFieldNotZero
  /-- `RSV = 000` and `OP` is `0xA` to `0xF` (R72). -/
  | operationNotDefined
deriving DecidableEq, Repr

/-- The G256 command that operation `op` selects, with its operands from `din0` to `din3` (R72, R74). -/
def decodeG256 (op : Nat) (c : Command) : Except DecodeReject Instr :=
  match op with
  | 0 => .ok .next256
  | 1 => .ok .jump256
  | 2 => .ok .ljump256
  | 3 => .ok (.loadj256 c.din0 c.din1 c.din2 c.din3)
  | 4 => .ok (.load256 c.din0 c.din1 c.din2 c.din3)
  | 5 => .ok (.seedc256 c.din0)
  | 6 => .ok (.seedm256 c.din0)
  | 7 => .ok .seede256
  | 8 => .ok .rdmin256
  | 9 => .ok .rdmax256
  | _ => .error .operationNotDefined

/-- The G128 command that operation `op` selects, with its operands from `din0` and `din1` (R72, R74). -/
def decodeG128 (op : Nat) (c : Command) : Except DecodeReject Instr :=
  match op with
  | 0 => .ok .next128
  | 1 => .ok .jump128
  | 2 => .ok .ljump128
  | 3 => .ok (.loadj128 c.din0 c.din1)
  | 4 => .ok (.load128 c.din0 c.din1)
  | 5 => .ok (.seedc128 c.din0)
  | 6 => .ok (.seedm128 c.din0)
  | 7 => .ok .seede128
  | 8 => .ok .rdmin128
  | 9 => .ok .rdmax128
  | _ => .error .operationNotDefined

/-- Decode and legality check of an accepted command (R77): `E = c[7]`, `RSV = c[6:4]`, `OP = c[3:0]`. -/
def decode (c : Command) : Except DecodeReject Instr :=
  if c.word.extractLsb' 4 3 ≠ 0#3 then .error .reservedFieldNotZero
  else
    match c.word.getLsbD 7 with
    | false => decodeG256 (c.word.extractLsb' 0 4).toNat c
    | true => decodeG128 (c.word.extractLsb' 0 4).toNat c

/-- A command word with no operand words, every operand bus at zero. -/
def Command.plain (w : CmdWord) : Command := ⟨w, 0, 0, 0, 0⟩

/-- The command the host offers to have `i` executed (R75, R74): its command word, and its operands on `din0` upward.
Operand words the command does not read may hold anything; the encoder puts 0 on them. -/
def encode : Instr → Command
  | .next256 => .plain 0x00
  | .jump256 => .plain 0x01
  | .ljump256 => .plain 0x02
  | .loadj256 w0 w1 w2 w3 => ⟨0x03, w0, w1, w2, w3⟩
  | .load256 w0 w1 w2 w3 => ⟨0x04, w0, w1, w2, w3⟩
  | .seedc256 s0 => ⟨0x05, s0, 0, 0, 0⟩
  | .seedm256 s0 => ⟨0x06, s0, 0, 0, 0⟩
  | .seede256 => .plain 0x07
  | .rdmin256 => .plain 0x08
  | .rdmax256 => .plain 0x09
  | .next128 => .plain 0x80
  | .jump128 => .plain 0x81
  | .ljump128 => .plain 0x82
  | .loadj128 w0 w1 => ⟨0x83, w0, w1, 0, 0⟩
  | .load128 w0 w1 => ⟨0x84, w0, w1, 0, 0⟩
  | .seedc128 s0 => ⟨0x85, s0, 0, 0, 0⟩
  | .seedm128 s0 => ⟨0x86, s0, 0, 0, 0⟩
  | .seede128 => .plain 0x87
  | .rdmin128 => .plain 0x88
  | .rdmax128 => .plain 0x89

/-- The command whose bits are `w` as spec/opcode_table.json numbers them. Every command is one 8-bit word (R79), which
are the table's `nbits`; the operand words have no bits in the table, so they are zero. -/
def Command.ofTableWord (nbits w : Nat) : Command := .plain (BitVec.ofNat 8 (w % 2 ^ nbits))

/-- What the decoder reads from the table's word `w`; `none` where it refuses. -/
def decodeTableWord (nbits w : Nat) : Option Instr :=
  match decode (.ofTableWord nbits w) with
  | .ok i => some i
  | .error _ => none

end Sys2Proof
end

