-- ==== Sys2Proof/Config.lean ====
section
/-! DEFINITION. What an implementation or its environment fixes and the spec leaves open. Every constant here is opaque:
it has no body, so no proof can know its value, and a theorem that names one holds whatever it is. -/

namespace Sys2Proof

/-- One answer of the entropy provider to `EntropyDraw()` (10_state.md R31): a word, or `fail`. -/
inductive Draw where
  /-- `ent_fail = 0`: the draw's result is `ok(ent_data)`. -/
  | ok (v : Word)
  /-- `ent_fail = 1`: the provider cannot give a word. -/
  | fail
deriving DecidableEq, Repr, Inhabited

/-- `K_SEEDM256`, the last constant of G256 `seed(s0)`, which the source prints as `<constant>`: an OPEN 64-bit
parameter (00_scope.md R6, 41_xoshiro256ss.md R152, 92 D21, 93 U1). Log entry 1. -/
opaque Config.kSeedm256 : Word

/-- The answer of the entropy provider to the draw numbered `n`, for a draw that `State.entIn` does not already hold an
answer for. Each draw is a free input, `ok(v)` for any `v` or `fail` (92 D11, 93 U5). Log entry 2. -/
opaque Config.entropyAnswer : Nat → Draw

/-- The word an engine's state word holds after a reset of a running block: "the state words of both engines become
unspecified" (70_reset_and_hazards.md R260, 93 U2, U4). A free value, fresh for each `n`. Log entry 3. -/
opaque Config.unspecifiedWord : Nat → Word

end Sys2Proof
end

