-- ==== Sys2Proof/Machine/State.lean ====
section
/-! DEFINITION. The state of one XSCORE block (10_state.md R20 to R35) with the inputs its host and its entropy provider
have ready for it, as plain data, and the state after reset (R35).

Each piece of state has one home. What the spec gives two names is stored once and computed where it is read
(Machine/Flags.lean and Machine/Ports.lean): `STATUS.SEEDEDe` mirrors `SEEDEDe`, and `STATUS.BUSY`, `cmd_ready`,
`rsp_valid`, `ent_req` and `JPHASE` are each a question about `phase`. -/

namespace Sys2Proof.Machine

/-- The G256 words `S256[0]` to `S256[3]` (R20); also the four accumulators of a G256 jump (R29). -/
structure Words256 where
  s0 : Word
  s1 : Word
  s2 : Word
  s3 : Word
deriving DecidableEq, Repr

/-- The G128 words `S128[0]` and `S128[1]` (R21); also the two accumulators of a G128 jump (R29). -/
structure Words128 where
  s0 : Word
  s1 : Word
deriving DecidableEq, Repr

/-- Which of an engine's two constant tables a jump reads (R28). `JENG` and this name give `JTAB` (R29): a G256 jump
reads only G256 tables and a G128 jump only G128 tables (R34). -/
inductive JumpKind where
  /-- `JUMP256` or `JUMP128`. -/
  | short
  /-- `LJUMP256` or `LJUMP128`. -/
  | long
deriving DecidableEq, Repr

/-- The three errors (60_exceptions.md R230). Their codes are `errorCode`. -/
inductive ErrorCause where
  /-- Code 1, raised by decode. -/
  | illegalCmd
  /-- Code 2, raised by `NEXTe`, `JUMPe` and `LJUMPe` on an engine that is not seeded. -/
  | unseeded
  /-- Code 3, raised by `SEEDEe` when an entropy draw fails. -/
  | entropyFail
deriving DecidableEq, Repr

/-- The one response a command ends with (30_encoding.md R76). -/
inductive Response where
  | done
  | data (v : Word)
  | error (code : BitVec 4)
deriving DecidableEq, Repr

/-- Where the block stands between accepting a command and having its response taken. Between commands it is `idle`;
the other phases last from one clock edge to a later one (20_memory.md R53, 40_datapath.md R111). `JPHASE = RUN`
exactly in the two `jumping` phases, and what the jump-advance state machine then holds (R29) is their arguments: `JENG`
is the constructor, `JTAB` the engine's table named by `tab`, `JIDX` is `idx` and `ACC` is `acc`. While `JPHASE = IDLE`
those fields are "unspecified" and nothing reads them (R29, 93 U10), so the other phases do not have them. -/
inductive Phase where
  /-- No command in the block: `BUSY = 0`, and the block can accept one. -/
  | idle
  /-- The load cycle of `LOADJ256` or `SEEDC256` (70_reset_and_hazards.md R280): `w` is to be loaded, then jumped. -/
  | loading256 (w : Words256)
  /-- The load cycle of `LOADJ128` or `SEEDC128`. -/
  | loading128 (w : Words128)
  /-- A G256 jump running. `load` says that the command is a load command, which sets `SEEDED256` when it completes. -/
  | jumping256 (load : Bool) (tab : JumpKind) (idx : Fin 256) (acc : Words256)
  /-- A G128 jump running. -/
  | jumping128 (load : Bool) (tab : JumpKind) (idx : Fin 128) (acc : Words128)
  /-- `SEEDE256` drawing its words: `req` is `ent_req`, and `got` are the words drawn so far, first first. The edge that
  ends a draw lowers `ent_req` (R31), so between two draws it is 0 for one cycle (20_memory.md R63, log entry 12). -/
  | drawing256 (req : Bool) (got : List Word)
  /-- `SEEDE128` drawing its words. -/
  | drawing128 (req : Bool) (got : List Word)
  /-- The response `r` is offered, `rsp_valid = 1`, and not yet taken. -/
  | responding (r : Response)
deriving DecidableEq, Repr

/-- What the host does next to the block, between commands: it offers a command, or asserts `rst`. -/
inductive HostInput where
  | command (c : Command)
  | reset
deriving DecidableEq, Repr

/-- The state of one XSCORE block, with what its environment has ready for it. -/
structure State where
  /-- `S256[0..3]` (R20). -/
  s256 : Words256
  /-- `S128[0..1]` (R21). -/
  s128 : Words128
  /-- `SEEDED256`, which `STATUS.SEEDED256` mirrors (R23, R26). -/
  seeded256 : Bool
  /-- `SEEDED128`, which `STATUS.SEEDED128` mirrors (R23, R26). -/
  seeded128 : Bool
  /-- `STATUS.ERR`, sticky (R26). -/
  err : Bool
  /-- `STATUS.ECODE`, sticky (R26). -/
  ecode : BitVec 4
  /-- `STATUS.ECMD`, sticky (R26). -/
  ecmd : CmdWord
  /-- The command in the block, if any, and the jump-advance state machine (R29, R53). -/
  phase : Phase
  /-- The host's inputs not yet accepted, next first: the sequence of commands that "takes the place of a program"
  (R24), with the resets between them. -/
  hostIn : List HostInput
  /-- The responses the host has taken, latest first (R54). -/
  taken : List Response
  /-- The entropy provider's answers to the next draws, next first. A draw past their end is answered by
  `Config.entropyAnswer` (R31, 92 D11). -/
  entIn : List Draw
  /-- The model's own: how many free values have been used. It selects the next one. -/
  free : Nat
deriving DecidableEq, Repr

/-- A reason for the machine to stop. There is none: a command in error ends with its `ERROR` response and the block
goes on (60_exceptions.md R232, R241), and "all operations are total functions over the full state space" (R231). No
meaning and no step raises a fault, which is safe: nothing is left out by one. Log entry 6. -/
inductive Fault where
deriving DecidableEq, Repr

/-- A reason for an instruction to have no meaning. -/
inductive Refusal where
  /-- The instruction has no meaning yet. Raised only by a refused arm of `exec`; there is none, since all 20 commands
  are modelled. Safe: it only leaves runs out. -/
  | notModelled (mnemonic : String)
deriving DecidableEq, Repr

/-- The state after reset (R35): both seeded bits and every `STATUS` field 0, `JPHASE = IDLE`, no response, no entropy
request, and nothing offered. The spec gives the six state words no value and says that a reader must not assume that
reset zeroes them (spec/91), so the model names the value all-ones for each: DESIGN CHOICE, log entry 4. They cannot be
observed while the engine is unseeded (R235). `free` is the model's own counter: DESIGN CHOICE, log entry 5. -/
def State.reset : State where
  s256 := ⟨0xffffffffffffffff, 0xffffffffffffffff, 0xffffffffffffffff, 0xffffffffffffffff⟩
  s128 := ⟨0xffffffffffffffff, 0xffffffffffffffff⟩
  seeded256 := false
  seeded128 := false
  err := false
  ecode := 0
  ecmd := 0
  phase := .idle
  hostIn := []
  taken := []
  entIn := []
  free := 0

end Sys2Proof.Machine
end

