-- ==== Sys2Proof/Machine/Flags.lean ====
section
/-! DEFINITION. The `STATUS` register (10_state.md R26), its error record (60_exceptions.md R230, R232), and the views of
the phase that `STATUS` and the ports show. -/

namespace Sys2Proof.Machine

/-- The 4-bit code of an error (R230). -/
def errorCode : ErrorCause → BitVec 4
  | .illegalCmd => 1
  | .unseeded => 2
  | .entropyFail => 3

/-- The first-error record: the first error after reset sets `ERR`, `ECODE` and `ECMD`, and later errors do not change
them (R232). -/
def recordError (code : BitVec 4) (c : CmdWord) (s : State) : State :=
  if s.err then s else { s with err := true, ecode := code, ecmd := c }

/-- `STATUS.BUSY`: 1 from acceptance of a command until its response has been taken (R26, 20_memory.md R53). -/
def busy (s : State) : Bool := s.phase ≠ .idle

/-- `JPHASE = RUN` (R29). -/
def jumpRunning (s : State) : Bool :=
  match s.phase with
  | .jumping256 _ _ _ _ => true
  | .jumping128 _ _ _ _ => true
  | .idle => false
  | .loading256 _ => false
  | .loading128 _ => false
  | .drawing256 _ _ => false
  | .drawing128 _ _ => false
  | .responding _ => false

/-- `STATUS[15:0]` (R26): `ECMD` in 15:8, `ECODE` in 7:4, `ERR` in 3, `SEEDED128` in 2, `SEEDED256` in 1, `BUSY` in 0. -/
def status (s : State) : BitVec 16 :=
  s.ecmd ++ s.ecode ++ BitVec.ofBool s.err ++ BitVec.ofBool s.seeded128 ++ BitVec.ofBool s.seeded256
    ++ BitVec.ofBool (busy s)

/-- `rsp_kind` of a response (30_encoding.md R76): 0 `DONE`, 1 `DATA`, 2 `ERROR`, never 3 (R30). -/
def rspKind : Response → BitVec 2
  | .done => 0
  | .data _ => 1
  | .error _ => 2

/-- `rsp_data` of a response (R76): the output word, the zero-extended error code, or 0. -/
def rspData : Response → Word
  | .done => 0
  | .data v => v
  | .error code => code.zeroExtend 64

end Sys2Proof.Machine
end

