-- ==== Sys2Proof/Machine/Constants.lean ====
section
/-! DEFINITION. The read-only constants of XSCORE: the range constants (10_state.md R27), the four jump tables (R28), and
the seeding literals. Each literal of the source is named once, so that a correction touches one place (92 D41, 93 U15). -/

namespace Sys2Proof.Machine

/-- `MINVAL` (R27). -/
def minVal : Word := 0

/-- `MAXVAL`, 2^64 − 1 (R27). -/
def maxVal : Word := 0xffffffffffffffff

/-- The table `JUMP256[0..3]`, index 0 first (41_xoshiro256ss.md R140). -/
def jumpTable256 : List Word :=
  [0x180ec6d33cfd0aba, 0xd5a61266f0c9392c, 0xa9582618e03fc9aa, 0x39abdc4529b1661c]

/-- The table `LJUMP256[0..3]`, index 0 first (R142). -/
def ljumpTable256 : List Word :=
  [0x76e15d3efefdcbbf, 0xc5004e441c522fb3, 0x77710069854ee241, 0x39109bb02acbe635]

/-- The table `JUMP128[0..1]`, index 0 first (42_xoroshiro128ss.md R190). -/
def jumpTable128 : List Word := [0xdf900294d8f554a5, 0x170865df4b3201fc]

/-- The table `LJUMP128[0..1]`, index 0 first (R192). -/
def ljumpTable128 : List Word := [0xd2a98b26625eee7b, 0xdddf9b1090aa7ac1]

/-- The table of G256 that a jump of either kind reads (R141, R143). -/
def table256 : JumpKind → List Word
  | .short => jumpTable256
  | .long => ljumpTable256

/-- The table of G128 that a jump of either kind reads (R191, R193). -/
def table128 : JumpKind → List Word
  | .short => jumpTable128
  | .long => ljumpTable128

/-- The literal `0x00f00f00f` of `SEEDC256`, zero-extended (00_scope.md R8, 92 D20; R150). -/
def seedc256Mask1 : Word := 0x000000000f00f00f

/-- The literal `0x0f00f00f0` of `SEEDC256`. -/
def seedc256Mask2 : Word := 0x00000000f00f00f0

/-- The literal `0xf00f00f00` of `SEEDC256`. -/
def seedc256Mask3 : Word := 0x0000000f00f00f00

/-- The literal that `SEEDM256` XORs into word 1 (R152). -/
def seedm256Mask1 : Word := 0xf0ff00dd00f0f00c

/-- The literal that `SEEDM256` XORs into word 2 (R152). -/
def seedm256Mask2 : Word := 0xffff00f0dd0f00f7

/-- The decimal literal `117171717` of `SEEDC128` and `SEEDM128`, which is `0x6fbe605` (R8, 92 D19; R200, R202). -/
def seed128Addend : Word := 117171717

end Sys2Proof.Machine
end

