-- ==== Sys2Proof/Machine/Datapath.lean ====
section
/-! DEFINITION. The functions the commands share (40_datapath.md): the bit-rotation multiplexer, the output scrambler,
the step function of each engine (41_xoshiro256ss.md R131, 42_xoroshiro128ss.md R181) and the jump algorithm. -/

namespace Sys2Proof.Machine

/-- `ROTL64(x, k)` (R100). It has a value only for `0 < k < 64` (R101, 93 U6), so it takes the proof of that. -/
def rotl (x : Word) (k : Nat) (_domain : 0 < k ∧ k < 64 := by decide) : Word := (x <<< k) ||| (x >>> (64 - k))

/-- The output scrambler `SCR(x) = ROTL64(x * 5, 7) * 9`, multiply, rotate, multiply (R104, R105, 90 C1). -/
def scr (x : Word) : Word :=
  let m := x * 5
  let r := rotl m 7
  r * 9

/-- `STEP256(s)`: the output, from the words before the step, and the next state, in the exact order of R131. -/
def step256 (s : Words256) : Word × Words256 :=
  let out := scr s.s1
  let t := s.s1 <<< 17
  let s2 := s.s2 ^^^ s.s0
  let s3 := s.s3 ^^^ s.s1
  let s1 := s.s1 ^^^ s2
  let s0 := s.s0 ^^^ s3
  let s2 := s2 ^^^ t
  let s3 := rotl s3 45
  (out, ⟨s0, s1, s2, s3⟩)

/-- `STEP128(s)`: the output, from the word before the step, and the next state (R181). -/
def step128 (s : Words128) : Word × Words128 :=
  let out := scr s.s0
  let s1 := s.s1 ^^^ s.s0
  let newS0 := rotl s.s0 24 ^^^ s1 ^^^ (s1 <<< 16)
  let newS1 := rotl s1 37
  (out, ⟨newS0, newS1⟩)

/-- One step with its output discarded, as a jump takes it (R110, 90 C9). -/
def advance256 (s : Words256) : Words256 := (step256 s).2

/-- One step with its output discarded. -/
def advance128 (s : Words128) : Words128 := (step128 s).2

/-- `ACC[i] <- ACC[i] ^ S[i]` for every word (R110). -/
def xor256 (a b : Words256) : Words256 := ⟨a.s0 ^^^ b.s0, a.s1 ^^^ b.s1, a.s2 ^^^ b.s2, a.s3 ^^^ b.s3⟩

/-- `ACC[i] <- ACC[i] ^ S[i]` for both words. -/
def xor128 (a b : Words128) : Words128 := ⟨a.s0 ^^^ b.s0, a.s1 ^^^ b.s1⟩

/-- Every word zero: the fixed point of the step (10_state.md R22), and an accumulator's start (R110). -/
def zero256 : Words256 := ⟨0, 0, 0, 0⟩

/-- Both words zero. -/
def zero128 : Words128 := ⟨0, 0⟩

/-- One iteration of the inner loop of R110, for a table bit `bit`: on the pair of accumulators and state, first XOR the
state into the accumulators if the bit is 1, then advance the state, always. -/
def jumpIteration {W : Type} (xor : W → W → W) (advance : W → W) (bit : Bool) (p : W × W) : W × W :=
  (if bit then xor p.1 p.2 else p.1, advance p.2)

/-- The inner loop of R110: the 64 bits of one table word, bit 0 first. -/
def jumpWord {W : Type} (xor : W → W → W) (advance : W → W) (p : W × W) (t : Word) : W × W :=
  (List.range 64).foldl (fun q b => jumpIteration xor advance (t.getLsbD b) q) p

/-- `JUMPALG(S, T, STEP)` (R110): the table words in index order, from cleared accumulators; the result is the
accumulators. -/
def jumpAlg {W : Type} (xor : W → W → W) (zero : W) (advance : W → W) (s : W) (table : List Word) : W :=
  (table.foldl (jumpWord xor advance) (zero, s)).1

/-- `JUMPALG(s, T, STEP256)`. Irreducible, so that no unification unrolls its 256 steps; `unfold` and `simp` open it. -/
@[irreducible] def jump256 (s : Words256) (table : List Word) : Words256 := jumpAlg xor256 zero256 advance256 s table

/-- `JUMPALG(s, T, STEP128)`. -/
@[irreducible] def jump128 (s : Words128) (table : List Word) : Words128 := jumpAlg xor128 zero128 advance128 s table

/-- Bit `i mod 64` of table word `floor(i / 64)`: the bit that the jump machine reads for `JIDX = i` (R111). -/
def tableBit (table : List Word) (i : Nat) : Bool := ((table[i / 64]?).getD 0).getLsbD (i % 64)

end Sys2Proof.Machine
end

