-- ==== Sys2Proof/Machine/Operands.lean ====
section
/-! DEFINITION. From a command's operand words to the state words it loads. A command has no immediate and no operand is
extended, scaled or shifted (30_encoding.md R74): word `din<i>` becomes state word `i`, and a seed is `din0`. The
derivations of the seed commands are those of 41_xoshiro256ss.md R150, R152 and 42_xoroshiro128ss.md R200, R202. -/

namespace Sys2Proof.Machine

/-- The explicit words, or a seed sequence's words in fill order, of a G256 load (R74, R145, R146). -/
def explicit256 (w0 w1 w2 w3 : Word) : Words256 := ⟨w0, w1, w2, w3⟩

/-- The explicit words, or a seed sequence's words in fill order, of a G128 load (R74, R195, R196). -/
def explicit128 (w0 w1 : Word) : Words128 := ⟨w0, w1⟩

/-- The words `SEEDC256` derives from its seed, before its jump (R150). -/
def seedc256Words (s0 : Word) : Words256 :=
  ⟨s0, s0 ^^^ seedc256Mask1, s0 ^^^ seedc256Mask2, s0 ^^^ seedc256Mask3⟩

/-- The words `SEEDM256` derives from its seed (R152). `k` is `K_SEEDM256`, an argument of the model (92 D21). -/
def seedm256Words (k s0 : Word) : Words256 :=
  let s1 := s0 ^^^ seedm256Mask1
  let s2 := rotl s1 45 ^^^ seedm256Mask2
  let s3 := rotl (s2 + s1) 17 ^^^ k
  ⟨s0, s1, s2, s3⟩

/-- The words `SEEDC128` derives from its seed, before its jump (R200). -/
def seedc128Words (s0 : Word) : Words128 := ⟨s0, ~~~s0 + seed128Addend⟩

/-- The words `SEEDM128` derives from its seed (R202). -/
def seedm128Words (s0 : Word) : Words128 := ⟨s0, ~~~(rotl s0 17) + seed128Addend⟩

end Sys2Proof.Machine
end

