-- ==== Sys2Proof/Machine/Ops.lean ====
section
/-! DEFINITION. The operations the meanings share: offering a response, raising an error (60_exceptions.md R232), writing
an engine's words and seeded bit, drawing entropy (10_state.md R31), taking a response (20_memory.md R53) and reset
(70_reset_and_hazards.md R260). -/

namespace Sys2Proof.Machine

/-- `respond`: the command ends and its response is offered on the response channel (00_scope.md R10, 20_memory.md R54). -/
def respond (r : Response) (s : State) : State := { s with phase := .responding r }

/-- `raise <Error>(c)` (R232): the error entry of this machine. It records the first error and ends the command with the
`ERROR` response; it saves nothing else, changes no mode, and goes to no handler (R239). There is no return from it: the
block takes the next command (R241). -/
def raise (e : ErrorCause) (c : CmdWord) (s : State) : State :=
  respond (.error (errorCode e)) (recordError (errorCode e) c s)

/-- Write all four words of G256 at once (R134, R110). -/
def writeWords256 (w : Words256) (s : State) : State := { s with s256 := w }

/-- Write both words of G128 at once. -/
def writeWords128 (w : Words128) (s : State) : State := { s with s128 := w }

/-- A load command that completes: the words, and `SEEDED256 <- 1` (R23). -/
def seedWith256 (w : Words256) (s : State) : State := { s with s256 := w, seeded256 := true }

/-- A load command that completes: the words, and `SEEDED128 <- 1` (R23). -/
def seedWith128 (w : Words128) (s : State) : State := { s with s128 := w, seeded128 := true }

/-- `SEEDED256 <- 0`, on a failed draw (R236). -/
def unseed256 (s : State) : State := { s with seeded256 := false }

/-- `SEEDED128 <- 0`, on a failed draw (R236). -/
def unseed128 (s : State) : State := { s with seeded128 := false }

/-- What the next draws are answered from: the answers the provider has ready, next first, and the count of free values
used. -/
abbrev Provider := List Draw × Nat

/-- The provider as the state holds it. -/
def provider (s : State) : Provider := (s.entIn, s.free)

/-- The state with its provider in another condition. -/
def setProvider (p : Provider) (s : State) : State := { s with entIn := p.1, free := p.2 }

/-- `EntropyDraw()` (R31): the provider's next answer, and the provider after it. Where none is ready the answer is a free
value (92 D11): log entry 2. -/
def entropyDraw : Provider → Draw × Provider
  | (a :: rest, n) => (a, (rest, n))
  | ([], n) => (Config.entropyAnswer n, ([], n + 1))

/-- One draw of a `SEEDE`: go on with the word, or end with none and draw no more (R236). -/
def drawThen {W : Type} (p : Provider) (onWord : Word → Provider → Option W × Provider) : Option W × Provider :=
  match entropyDraw p with
  | (.ok w, q) => onWord w q
  | (.fail, q) => (none, q)

/-- The four draws of `SEEDE256`, word 0 first (20_memory.md R63); `none` when one of them fails. -/
def draw256 (p : Provider) : Option Words256 × Provider :=
  drawThen p fun w0 p => drawThen p fun w1 p => drawThen p fun w2 p => drawThen p fun w3 p =>
    (some ⟨w0, w1, w2, w3⟩, p)

/-- The two draws of `SEEDE128`, word 0 first (R63); `none` when one of them fails. -/
def draw128 (p : Provider) : Option Words128 × Provider :=
  drawThen p fun w0 p => drawThen p fun w1 p => (some ⟨w0, w1⟩, p)

/-- A failed draw of `SEEDE256`: the seeded bit is cleared first, the words stay, and the error is raised (R236). -/
def entropyFail256 (s : State) : State := raise .entropyFail 0x07 (unseed256 s)

/-- A failed draw of `SEEDE128`. -/
def entropyFail128 (s : State) : State := raise .entropyFail 0x87 (unseed128 s)

/-- The host takes the response on offer: the block is idle again, `BUSY = 0` (R53). Where none is on offer, nothing
happens. -/
def takeResponse (s : State) : State :=
  match s.phase with
  | .responding r => { s with phase := .idle, taken := r :: s.taken }
  | .idle => s
  | .loading256 _ => s
  | .loading128 _ => s
  | .jumping256 _ _ _ _ => s
  | .jumping128 _ _ _ _ => s
  | .drawing256 _ _ => s
  | .drawing128 _ _ => s

/-- Reset of a running block (R260, R261): the reset values of 10_state.md R35 whatever it was doing, with a command in
progress abandoned and its response discarded. The state words "become unspecified": each takes a free value (log
entry 3). What the environment has ready, and what the host has already taken, is outside the block and stays. -/
def applyReset (s : State) : State :=
  { s with
    s256 := ⟨Config.unspecifiedWord s.free, Config.unspecifiedWord (s.free + 1),
      Config.unspecifiedWord (s.free + 2), Config.unspecifiedWord (s.free + 3)⟩
    s128 := ⟨Config.unspecifiedWord (s.free + 4), Config.unspecifiedWord (s.free + 5)⟩
    seeded256 := false
    seeded128 := false
    err := false
    ecode := 0
    ecmd := 0
    phase := .idle
    free := s.free + 6 }

end Sys2Proof.Machine
end

