-- ==== Sys2Proof/Machine/G128.lean ====
section
/-! DEFINITION. The meanings of the ten commands of Generator-128 (42_xoroshiro128ss.md). Each is one atomic
transition (00_scope.md R11) to the state in which its response is offered. Every meaning answers a next state: a command
in error takes the error entry `raise` (60_exceptions.md R232). -/

namespace Sys2Proof.Machine

/-- `NEXT128` (R184): the output is that of the step, computed from the words before it. -/
def execNext128 (s : State) : Host.Outcome State Fault Refusal :=
  if s.seeded128 then
    let p := step128 s.s128
    .next (respond (.data p.1) (writeWords128 p.2 s))
  else .next (raise .unseeded 0x80 s)

/-- `JUMP128` (R191). -/
def execJump128 (s : State) : Host.Outcome State Fault Refusal :=
  if s.seeded128 then .next (respond .done (writeWords128 (jump128 s.s128 jumpTable128) s))
  else .next (raise .unseeded 0x81 s)

/-- `LJUMP128` (R193). -/
def execLjump128 (s : State) : Host.Outcome State Fault Refusal :=
  if s.seeded128 then .next (respond .done (writeWords128 (jump128 s.s128 ljumpTable128) s))
  else .next (raise .unseeded 0x82 s)

/-- `LOADJ128` (R196): the two words, then one jump with `JUMP128`. -/
def execLoadj128 (w0 w1 : Word) (s : State) : Host.Outcome State Fault Refusal :=
  .next (respond .done (seedWith128 (jump128 (explicit128 w0 w1) jumpTable128) s))

/-- `LOAD128` (R195): the two words, no jump. -/
def execLoad128 (w0 w1 : Word) (s : State) : Host.Outcome State Fault Refusal :=
  .next (respond .done (seedWith128 (explicit128 w0 w1) s))

/-- `SEEDC128` (R200): the words derived from the seed, then one jump with `JUMP128`. -/
def execSeedc128 (s0 : Word) (s : State) : Host.Outcome State Fault Refusal :=
  .next (respond .done (seedWith128 (jump128 (seedc128Words s0) jumpTable128) s))

/-- `SEEDM128` (R202): the words derived from the seed, no jump. -/
def execSeedm128 (s0 : Word) (s : State) : Host.Outcome State Fault Refusal :=
  .next (respond .done (seedWith128 (seedm128Words s0) s))

/-- `SEEDE128` (R205): the words are written only after both draws succeed. -/
def execSeede128 (s : State) : Host.Outcome State Fault Refusal :=
  match draw128 (provider s) with
  | (some w, p) => .next (respond .done (seedWith128 w (setProvider p s)))
  | (none, p) => .next (entropyFail128 (setProvider p s))

/-- `RDMIN128` (R210): it needs no seeded state. -/
def execRdmin128 (s : State) : Host.Outcome State Fault Refusal := .next (respond (.data minVal) s)

/-- `RDMAX128` (R211): it needs no seeded state. -/
def execRdmax128 (s : State) : Host.Outcome State Fault Refusal := .next (respond (.data maxVal) s)

end Sys2Proof.Machine
end

