-- ==== Sys2Proof/Machine/G256.lean ====
section
/-! DEFINITION. The meanings of the ten commands of Generator-256 (41_xoshiro256ss.md). Each is one atomic
transition (00_scope.md R11) to the state in which its response is offered. Every meaning answers a next state: a command
in error takes the error entry `raise` (60_exceptions.md R232). -/

namespace Sys2Proof.Machine

/-- `NEXT256` (R134): the output is that of the step, computed from the words before it. -/
def execNext256 (s : State) : Host.Outcome State Fault Refusal :=
  if s.seeded256 then
    let p := step256 s.s256
    .next (respond (.data p.1) (writeWords256 p.2 s))
  else .next (raise .unseeded 0x00 s)

/-- `JUMP256` (R141). -/
def execJump256 (s : State) : Host.Outcome State Fault Refusal :=
  if s.seeded256 then .next (respond .done (writeWords256 (jump256 s.s256 jumpTable256) s))
  else .next (raise .unseeded 0x01 s)

/-- `LJUMP256` (R143). -/
def execLjump256 (s : State) : Host.Outcome State Fault Refusal :=
  if s.seeded256 then .next (respond .done (writeWords256 (jump256 s.s256 ljumpTable256) s))
  else .next (raise .unseeded 0x02 s)

/-- `LOADJ256` (R146): the four words, then one jump with `JUMP256`. -/
def execLoadj256 (w0 w1 w2 w3 : Word) (s : State) : Host.Outcome State Fault Refusal :=
  .next (respond .done (seedWith256 (jump256 (explicit256 w0 w1 w2 w3) jumpTable256) s))

/-- `LOAD256` (R145): the four words, no jump. -/
def execLoad256 (w0 w1 w2 w3 : Word) (s : State) : Host.Outcome State Fault Refusal :=
  .next (respond .done (seedWith256 (explicit256 w0 w1 w2 w3) s))

/-- `SEEDC256` (R150): the words derived from the seed, then one jump with `JUMP256`. -/
def execSeedc256 (s0 : Word) (s : State) : Host.Outcome State Fault Refusal :=
  .next (respond .done (seedWith256 (jump256 (seedc256Words s0) jumpTable256) s))

/-- `SEEDM256` (R152): the words derived from the seed, no jump. -/
def execSeedm256 (s0 : Word) (s : State) : Host.Outcome State Fault Refusal :=
  .next (respond .done (seedWith256 (seedm256Words Config.kSeedm256 s0) s))

/-- `SEEDE256` (R155): the words are written only after all four draws succeed. -/
def execSeede256 (s : State) : Host.Outcome State Fault Refusal :=
  match draw256 (provider s) with
  | (some w, p) => .next (respond .done (seedWith256 w (setProvider p s)))
  | (none, p) => .next (entropyFail256 (setProvider p s))

/-- `RDMIN256` (R160): it needs no seeded state. -/
def execRdmin256 (s : State) : Host.Outcome State Fault Refusal := .next (respond (.data minVal) s)

/-- `RDMAX256` (R161): it needs no seeded state. -/
def execRdmax256 (s : State) : Host.Outcome State Fault Refusal := .next (respond (.data maxVal) s)

end Sys2Proof.Machine
end

