-- ==== Sys2Proof/Machine/Dispatch.lean ====
section
/-! DEFINITION. The meaning of every command: one arm per constructor of `Instr`, in the order of spec/opcode_table.json
(30_encoding.md R75, R77). No arm is refused. -/

namespace Sys2Proof.Machine

def exec (i : Instr) (s : State) : Host.Outcome State Fault Refusal :=
  match i with
  | .next256 => Sys2Proof.Machine.execNext256 s
  | .jump256 => Sys2Proof.Machine.execJump256 s
  | .ljump256 => Sys2Proof.Machine.execLjump256 s
  | .loadj256 w0 w1 w2 w3 => Sys2Proof.Machine.execLoadj256 w0 w1 w2 w3 s
  | .load256 w0 w1 w2 w3 => Sys2Proof.Machine.execLoad256 w0 w1 w2 w3 s
  | .seedc256 s0 => Sys2Proof.Machine.execSeedc256 s0 s
  | .seedm256 s0 => Sys2Proof.Machine.execSeedm256 s0 s
  | .seede256 => Sys2Proof.Machine.execSeede256 s
  | .rdmin256 => Sys2Proof.Machine.execRdmin256 s
  | .rdmax256 => Sys2Proof.Machine.execRdmax256 s
  | .next128 => Sys2Proof.Machine.execNext128 s
  | .jump128 => Sys2Proof.Machine.execJump128 s
  | .ljump128 => Sys2Proof.Machine.execLjump128 s
  | .loadj128 w0 w1 => Sys2Proof.Machine.execLoadj128 w0 w1 s
  | .load128 w0 w1 => Sys2Proof.Machine.execLoad128 w0 w1 s
  | .seedc128 s0 => Sys2Proof.Machine.execSeedc128 s0 s
  | .seedm128 s0 => Sys2Proof.Machine.execSeedm128 s0 s
  | .seede128 => Sys2Proof.Machine.execSeede128 s
  | .rdmin128 => Sys2Proof.Machine.execRdmin128 s
  | .rdmax128 => Sys2Proof.Machine.execRdmax128 s

end Sys2Proof.Machine
end

