-- ==== Sys2Proof/Machine/Ports.lean ====
section
/-! DEFINITION. The ports of the block at one rising edge of `clk` (10_state.md R30): what it samples and what it
drives. `clk` itself is the call of `clockEdge` (Machine/Clock.lean). -/

namespace Sys2Proof.Machine

/-- The input ports as sampled on one rising edge of `clk`. -/
structure PortIn where
  rst : Bool
  cmdValid : Bool
  /-- `cmd[7:0]` and `din0` to `din3`. -/
  cmd : Command
  rspReady : Bool
  entAck : Bool
  entFail : Bool
  entData : Word
deriving DecidableEq, Repr

/-- The output ports. `rsp_kind` and `rsp_data` are present exactly while `rsp_valid = 1`: the spec says nothing of them
at other times. -/
structure PortOut where
  cmdReady : Bool
  rspValid : Bool
  rsp : Option (BitVec 2 × Word)
  entReq : Bool
  status : BitVec 16
  err : Bool
deriving DecidableEq, Repr

/-- `cmd_ready`: the block can accept a command exactly when none is in it and `rst = 0` (20_memory.md R52, R53,
70_reset_and_hazards.md R260). -/
def cmdReady (rst : Bool) (s : State) : Bool := !rst && !busy s

/-- The response on offer. -/
def offered (s : State) : Option Response :=
  match s.phase with
  | .responding r => some r
  | .idle => none
  | .loading256 _ => none
  | .loading128 _ => none
  | .jumping256 _ _ _ _ => none
  | .jumping128 _ _ _ _ => none
  | .drawing256 _ _ => none
  | .drawing128 _ _ => none

/-- `ent_req`: raised while a `SEEDE` asks for a word, and only then (R31). -/
def entReq (s : State) : Bool :=
  match s.phase with
  | .drawing256 req _ => req
  | .drawing128 req _ => req
  | .idle => false
  | .loading256 _ => false
  | .loading128 _ => false
  | .jumping256 _ _ _ _ => false
  | .jumping128 _ _ _ _ => false
  | .responding _ => false

/-- The output ports in state `s`, with `rst` at its present level. `err` equals `STATUS.ERR` at all times (R30). -/
def portOut (rst : Bool) (s : State) : PortOut where
  cmdReady := cmdReady rst s
  rspValid := (offered s).isSome
  rsp := (offered s).map fun r => (rspKind r, rspData r)
  entReq := entReq s
  status := status s
  err := s.err

end Sys2Proof.Machine
end

