-- ==== Sys2Proof/Machine/Clock.lean ====
section
/-! DEFINITION. The block one rising edge of `clk` at a time: acceptance of a command (20_memory.md R52), the
jump-advance state machine (40_datapath.md R111), the entropy handshake (10_state.md R31), the response channel (R53,
R54) and synchronous reset (70_reset_and_hazards.md R260, R261). These rules "refine this transition but never change its
result" (00_scope.md R11): `exec` says what a command does, and this file says over which edges it does it. -/

namespace Sys2Proof.Machine

/-- The next state of an outcome; `s` itself where there is none. -/
def nextOr (s : State) (o : Host.Outcome State Fault Refusal) : State :=
  match o with
  | .next t => t
  | .fault _ => s
  | .refused _ => s

/-- The edge that accepts command `i` on a block that holds `s`. A jump starts with `JPHASE <- RUN`, `JIDX <- 0` and
`ACC <- 0` (R111); a load command that jumps goes through its load cycle first, and `SEEDE` raises `ent_req`
(R280 gives the counts). Every other command is done in this one cycle. -/
def startCommand (i : Instr) (s : State) : State :=
  match i with
  | .next256 => nextOr s (execNext256 s)
  | .jump256 =>
    if s.seeded256 then { s with phase := .jumping256 false .short 0 zero256 } else raise .unseeded 0x01 s
  | .ljump256 =>
    if s.seeded256 then { s with phase := .jumping256 false .long 0 zero256 } else raise .unseeded 0x02 s
  | .loadj256 w0 w1 w2 w3 => { s with phase := .loading256 (explicit256 w0 w1 w2 w3) }
  | .load256 w0 w1 w2 w3 => nextOr s (execLoad256 w0 w1 w2 w3 s)
  | .seedc256 s0 => { s with phase := .loading256 (seedc256Words s0) }
  | .seedm256 s0 => nextOr s (execSeedm256 s0 s)
  | .seede256 => { s with phase := .drawing256 true [] }
  | .rdmin256 => nextOr s (execRdmin256 s)
  | .rdmax256 => nextOr s (execRdmax256 s)
  | .next128 => nextOr s (execNext128 s)
  | .jump128 =>
    if s.seeded128 then { s with phase := .jumping128 false .short 0 zero128 } else raise .unseeded 0x81 s
  | .ljump128 =>
    if s.seeded128 then { s with phase := .jumping128 false .long 0 zero128 } else raise .unseeded 0x82 s
  | .loadj128 w0 w1 => { s with phase := .loading128 (explicit128 w0 w1) }
  | .load128 w0 w1 => nextOr s (execLoad128 w0 w1 s)
  | .seedc128 s0 => { s with phase := .loading128 (seedc128Words s0) }
  | .seedm128 s0 => nextOr s (execSeedm128 s0 s)
  | .seede128 => { s with phase := .drawing128 true [] }
  | .rdmin128 => nextOr s (execRdmin128 s)
  | .rdmax128 => nextOr s (execRdmax128 s)

/-- The edge on which a command is accepted (R52): its word and operands are sampled, and decode checks its legality
before any engine rule runs (30_encoding.md R77). -/
def acceptCommand (c : Command) (s : State) : State :=
  match decode c with
  | .ok i => startCommand i s
  | .error _ => raise .illegalCmd c.word s

/-- One cycle of a G256 jump (R111): the iteration of R110 for bit `idx`, then `idx` is incremented. After the last
iteration the words are written from the accumulators, the machine is idle and the command responds; a load command sets
`SEEDED256` then, when it completes (R23). -/
def jumpCycle256 (load : Bool) (tab : JumpKind) (idx : Fin 256) (acc : Words256) (s : State) : State :=
  let p := jumpIteration xor256 advance256 (tableBit (table256 tab) idx.val) (acc, s.s256)
  if last : idx.val + 1 < 256 then { s with s256 := p.2, phase := .jumping256 load tab ⟨idx.val + 1, last⟩ p.1 }
  else respond .done { s with s256 := p.1, seeded256 := s.seeded256 || load }

/-- One cycle of a G128 jump (R111). -/
def jumpCycle128 (load : Bool) (tab : JumpKind) (idx : Fin 128) (acc : Words128) (s : State) : State :=
  let p := jumpIteration xor128 advance128 (tableBit (table128 tab) idx.val) (acc, s.s128)
  if last : idx.val + 1 < 128 then { s with s128 := p.2, phase := .jumping128 load tab ⟨idx.val + 1, last⟩ p.1 }
  else respond .done { s with s128 := p.1, seeded128 := s.seeded128 || load }

/-- The edge on which a word is drawn for `SEEDE256`: `ent_req` is lowered (R31); the fourth word completes the command
(R155). -/
def wordDrawn256 (got : List Word) (w : Word) (s : State) : State :=
  match got with
  | [w0, w1, w2] => respond .done (seedWith256 ⟨w0, w1, w2, w⟩ s)
  | _ => { s with phase := .drawing256 false (got ++ [w]) }

/-- The edge on which a word is drawn for `SEEDE128`: the second completes the command (R205). -/
def wordDrawn128 (got : List Word) (w : Word) (s : State) : State :=
  match got with
  | [w0] => respond .done (seedWith128 ⟨w0, w⟩ s)
  | _ => { s with phase := .drawing128 false (got ++ [w]) }

/-- One rising edge of `clk` with the input ports at `p`. With `rst = 1` the block takes its reset values whatever it was
doing (R260). Otherwise: idle, it accepts an offered command; with `ent_req = 1`, it samples `ent_fail` and `ent_data`
when `ent_ack = 1` and waits when it is 0; between two draws it raises `ent_req` again; with a response on offer, it holds
it until `rsp_ready = 1`. A command offered while one is in the block waits (R270): outside the idle phase `cmd` is not
read.

DESIGN CHOICE (log entry 19): on an edge with `rst = 1`, `rsp_valid = 1` and `rsp_ready = 1` together, the reset wins: the
response is discarded as not yet taken (R261) and `taken` does not gain it, though R53 calls a response taken on an edge
where `rsp_valid = 1` and `rsp_ready = 1` and names no `rst`. -/
def clockEdge (p : PortIn) (s : State) : State :=
  if p.rst then applyReset s
  else
    match s.phase with
    | .idle => if p.cmdValid then acceptCommand p.cmd s else s
    | .loading256 w => { s with s256 := w, phase := .jumping256 true .short 0 zero256 }
    | .loading128 w => { s with s128 := w, phase := .jumping128 true .short 0 zero128 }
    | .jumping256 load tab idx acc => jumpCycle256 load tab idx acc s
    | .jumping128 load tab idx acc => jumpCycle128 load tab idx acc s
    | .drawing256 true got =>
      if p.entAck then (if p.entFail then entropyFail256 s else wordDrawn256 got p.entData s) else s
    | .drawing256 false got => { s with phase := .drawing256 true got }
    | .drawing128 true got =>
      if p.entAck then (if p.entFail then entropyFail128 s else wordDrawn128 got p.entData s) else s
    | .drawing128 false got => { s with phase := .drawing128 true got }
    | .responding _ => if p.rspReady then takeResponse s else s

/-- The input ports as the environment that `State` holds drives them while a command is in the block: the host takes
every response and the provider answers every draw (92 D40, log entry 7), the host's next command is offered and waits,
and `rst` is low. -/
def environmentPorts (s : State) : PortIn where
  rst := false
  cmdValid := match s.hostIn with
    | .command _ :: _ => true
    | .reset :: _ => false
    | [] => false
  cmd := match s.hostIn with
    | .command c :: _ => c
    | .reset :: _ => .plain 0
    | [] => .plain 0
  rspReady := true
  entAck := true
  entFail := match (entropyDraw (provider s)).1 with
    | .fail => true
    | .ok _ => false
  entData := match (entropyDraw (provider s)).1 with
    | .ok v => v
    | .fail => 0

/-- One edge of the block together with its environment: an accepted command leaves the host's list, and an answered
draw leaves the provider's. -/
def systemEdge (s : State) : State :=
  let p := environmentPorts s
  match s.phase with
  | .idle => match s.hostIn with
    | .command _ :: rest => clockEdge p { s with hostIn := rest }
    | .reset :: rest => applyReset { s with hostIn := rest }
    | [] => clockEdge p s
  | .drawing256 true _ => clockEdge p (setProvider (entropyDraw (provider s)).2 s)
  | .drawing256 false _ => clockEdge p s
  | .drawing128 true _ => clockEdge p (setProvider (entropyDraw (provider s)).2 s)
  | .drawing128 false _ => clockEdge p s
  | .loading256 _ => clockEdge p s
  | .loading128 _ => clockEdge p s
  | .jumping256 _ _ _ _ => clockEdge p s
  | .jumping128 _ _ _ _ => clockEdge p s
  | .responding _ => clockEdge p s

end Sys2Proof.Machine
end

