-- ==== Sys2Proof/Machine/Transaction.lean ====
section
/-! DEFINITION. The block one command at a time (00_scope.md R11): a command is accepted, executed and answered, and its
response taken, as one transition. `Step.lean` calls these. -/

namespace Sys2Proof.Machine

/-- The transaction of an accepted command (30_encoding.md R77): an illegal word raises `ILLEGAL_CMD` and selects no
engine rule; a legal one is executed; then the host takes the response (20_memory.md R53, 92 D40). -/
def transact (c : Command) (s : State) : Host.Outcome State Fault Refusal :=
  match decode c with
  | .error _ => .next (takeResponse (raise .illegalCmd c.word s))
  | .ok i =>
    match exec i s with
    | .next t => .next (takeResponse t)
    | .fault f => .fault f
    | .refused r => .refused r

/-- The step of a block with no command in it: the host's next input is taken. With none, the block is idle and its
registers hold their values (60_exceptions.md R247). -/
def idleStep (s : State) : Host.Outcome State Fault Refusal :=
  match s.hostIn with
  | [] => .next s
  | .reset :: rest => .next (applyReset { s with hostIn := rest })
  | .command c :: rest => transact c { s with hostIn := rest }

/-- One step. Between commands it is one transaction. A state in which a command is part-way, which no run of steps from
reset reaches, goes on by one clock edge, with the host's next command waiting (70_reset_and_hazards.md R270). -/
def machineStep (s : State) : Host.Outcome State Fault Refusal :=
  match s.phase with
  | .idle => idleStep s
  | .loading256 _ => .next (systemEdge s)
  | .loading128 _ => .next (systemEdge s)
  | .jumping256 _ _ _ _ => .next (systemEdge s)
  | .jumping128 _ _ _ _ => .next (systemEdge s)
  | .drawing256 _ _ => .next (systemEdge s)
  | .drawing128 _ _ => .next (systemEdge s)
  | .responding _ => .next (systemEdge s)

/-- The state in which the host offers command `c` next, to a block with no command in it. -/
def offerCommand (c : Command) (s : State) : State :=
  { s with hostIn := .command c :: s.hostIn, phase := .idle }

end Sys2Proof.Machine
end

