-- ==== Sys2Proof/Machine/Step.lean ====
section
/-! DEFINITION. One step of the machine, and how the host places a command for the next step. XSCORE fetches nothing and
has no program counter (10_state.md R24, 20_memory.md R60): its program is the host's command stream. -/

namespace Sys2Proof.Machine

/-- One step: one command of the host's stream, executed and answered (00_scope.md R11). -/
def step (s : State) : Host.Outcome State Fault Refusal := machineStep s

/-- `s` with the table's word `w` as the command the host offers next, its operand words zero. Log entry 8. -/
def State.withFetchWord (s : State) (nbits w : Nat) : State := offerCommand (.ofTableWord nbits w) s

end Sys2Proof.Machine
end

