-- ==== Sys2Proof/Machine/Assembly.lean ====
section
/-! DEFINITION. The notation of a command stream (30_encoding.md R80) and the pseudo-commands that name the source's
operations (R81). Neither is in the hardware: both only say which commands the host offers, in which order. -/

namespace Sys2Proof.Machine

/-- The pseudo-commands of R81, for both engines. -/
inductive Pseudo where
  /-- `ctor<e>`: default construction. -/
  | ctorDefault (e : Engine)
  /-- `ctor<e> s`: construct from one 64-bit seed. -/
  | ctorSeed (e : Engine) (s0 : Word)
  /-- `ctor256 w0, …, w3`, and `ctor256.seq` with the words in fill order. -/
  | ctorWords256 (w0 w1 w2 w3 : Word)
  /-- `ctor128 w0, w1`, and `ctor128.seq` with the words in fill order. -/
  | ctorWords128 (w0 w1 : Word)
  /-- `seed<e> s`: the `seed(s0)` mutator. -/
  | seed (e : Engine) (s0 : Word)
  /-- `seed256.seq w0, …, w3`: the `seed(seed_sequence)` mutator. -/
  | seedSeq256 (w0 w1 w2 w3 : Word)
  /-- `seed128.seq w0, w1`. -/
  | seedSeq128 (w0 w1 : Word)
  /-- `call<e>`. -/
  | call (e : Engine)
  /-- `long_jump<e>`. -/
  | longJump (e : Engine)
  /-- `min<e>`. -/
  | min (e : Engine)
  /-- `max<e>`. -/
  | max (e : Engine)
  /-- `discard<e> k`. -/
  | discard (e : Engine) (k : Nat)
  /-- `restore256 w0, …, w3`, for a state whose words the host knows (60_exceptions.md R245). -/
  | restore256 (w0 w1 w2 w3 : Word)
  /-- `restore128 w0, w1`. -/
  | restore128 (w0 w1 : Word)
deriving DecidableEq, Repr

/-- `NEXT` of an engine. -/
def nextOf : Engine → Instr
  | .g256 => .next256
  | .g128 => .next128

/-- `JUMP` of an engine. -/
def jumpOf : Engine → Instr
  | .g256 => .jump256
  | .g128 => .jump128

/-- The commands a pseudo-command expands to (R81). -/
def Pseudo.expand : Pseudo → List Instr
  | .ctorDefault .g256 => [.seede256]
  | .ctorDefault .g128 => [.seede128]
  | .ctorSeed .g256 s0 => [.seedc256 s0]
  | .ctorSeed .g128 s0 => [.seedc128 s0]
  | .ctorWords256 w0 w1 w2 w3 => [.loadj256 w0 w1 w2 w3]
  | .ctorWords128 w0 w1 => [.loadj128 w0 w1]
  | .seed .g256 s0 => [.seedm256 s0]
  | .seed .g128 s0 => [.seedm128 s0]
  | .seedSeq256 w0 w1 w2 w3 => [.load256 w0 w1 w2 w3]
  | .seedSeq128 w0 w1 => [.load128 w0 w1]
  | .call e => [nextOf e]
  | .longJump .g256 => [.ljump256]
  | .longJump .g128 => [.ljump128]
  | .min .g256 => [.rdmin256]
  | .min .g128 => [.rdmin128]
  | .max .g256 => [.rdmax256]
  | .max .g128 => [.rdmax128]
  | .discard e k => List.replicate k (nextOf e)
  | .restore256 w0 w1 w2 w3 => [.load256 w0 w1 w2 w3]
  | .restore128 w0 w1 => [.load128 w0 w1]

/-- One line of a program (R80): a command, a raw command word with operands ignored, or a pseudo-command. -/
inductive Line where
  | instr (i : Instr)
  /-- `.word 0xNN`, legal or illegal. -/
  | word (c : CmdWord)
  | pseudo (p : Pseudo)
deriving DecidableEq, Repr

/-- The commands a line issues. DESIGN CHOICE (log entry 20): `.word 0xNN` issues its word with zero on `din0` to `din3`. R80
says "with operands ignored" and not which operand words are on the port, which matters only for a legal word whose command
reads some (0x03 to 0x06, 0x83 to 0x86): so `.word 0x04` loads four zeros. -/
def Line.commands : Line → List Command
  | .instr i => [encode i]
  | .word c => [.plain c]
  | .pseudo p => p.expand.map encode

/-- The commands a program issues, in order. -/
def assemble (program : List Line) : List Command := program.flatMap Line.commands

/-- Worker `j`'s program for a parallel stream (60_exceptions.md R245): the base's load command, then `j` jumps of its
engine. -/
def workerProgram (base : Instr) (j : Nat) : List Instr := base :: List.replicate j (jumpOf base.engine)

/-- The lower-case mnemonic of a command (R80). -/
def mnemonicText : Instr → String
  | .next256 => "next256"
  | .jump256 => "jump256"
  | .ljump256 => "ljump256"
  | .loadj256 _ _ _ _ => "loadj256"
  | .load256 _ _ _ _ => "load256"
  | .seedc256 _ => "seedc256"
  | .seedm256 _ => "seedm256"
  | .seede256 => "seede256"
  | .rdmin256 => "rdmin256"
  | .rdmax256 => "rdmax256"
  | .next128 => "next128"
  | .jump128 => "jump128"
  | .ljump128 => "ljump128"
  | .loadj128 _ _ => "loadj128"
  | .load128 _ _ => "load128"
  | .seedc128 _ => "seedc128"
  | .seedm128 _ => "seedm128"
  | .seede128 => "seede128"
  | .rdmin128 => "rdmin128"
  | .rdmax128 => "rdmax128"

/-- The operands a command is written with, those it reads, in `din0`, `din1`, … order (R80). -/
def operandsText : Instr → List Word
  | .loadj256 w0 w1 w2 w3 => [w0, w1, w2, w3]
  | .load256 w0 w1 w2 w3 => [w0, w1, w2, w3]
  | .seedc256 s0 => [s0]
  | .seedm256 s0 => [s0]
  | .loadj128 w0 w1 => [w0, w1]
  | .load128 w0 w1 => [w0, w1]
  | .seedc128 s0 => [s0]
  | .seedm128 s0 => [s0]
  | .next256 => []
  | .jump256 => []
  | .ljump256 => []
  | .seede256 => []
  | .rdmin256 => []
  | .rdmax256 => []
  | .next128 => []
  | .jump128 => []
  | .ljump128 => []
  | .seede128 => []
  | .rdmin128 => []
  | .rdmax128 => []

/-- A command as R80 writes it, with its operands in decimal. -/
def asmText (i : Instr) : String :=
  match operandsText i with
  | [] => mnemonicText i
  | ws => mnemonicText i ++ " " ++ String.intercalate ", " (ws.map fun w => toString w.toNat)

end Sys2Proof.Machine
end

