-- ==== Sys2Proof/Safety.lean ====
section
/-! DEFINITION. The terms claims about the machine are made in: the invariant of a state (error record, responses and the
command in progress), running a list of commands, what a jump is in terms of steps, the entropy draws of
a list of commands, and the cycle counts of 70_reset_and_hazards.md R280. -/

namespace Sys2Proof.Machine

/-- A command word that `UNSEEDED` can be raised for: `NEXT`, `JUMP` and `LJUMP` of either engine (60_exceptions.md R230). -/
def isSteppingWord (c : CmdWord) : Bool :=
  c == 0x00 || c == 0x01 || c == 0x02 || c == 0x80 || c == 0x81 || c == 0x82

/-- A command word that `ENTROPY_FAIL` can be raised for: `SEEDE256` or `SEEDE128`. -/
def isEntropyWord (c : CmdWord) : Bool := c == 0x07 || c == 0x87

/-- The error record is one the block can make: all zero while `ERR = 0` (10_state.md R26), and otherwise a code of R230
with a command word that raises it. -/
def recordOk (s : State) : Bool :=
  if s.err then
    (s.ecode == 1 && !legalWord s.ecmd) || (s.ecode == 2 && isSteppingWord s.ecmd)
      || (s.ecode == 3 && isEntropyWord s.ecmd)
  else s.ecode == 0 && s.ecmd == 0

/-- A response the block can give: an `ERROR` carries code 1, 2 or 3 (R230: the others are never raised). -/
def responseOk : Response → Bool
  | .done => true
  | .data _ => true
  | .error code => code == 1 || code == 2 || code == 3

/-- The command in progress is one the block can be executing: a jump that is not part of a load command runs on a seeded
engine (R235), one that is reads the short table (41_xoshiro256ss.md R146), and a `SEEDE` has fewer words than it needs,
and some where `ent_req` is low. -/
def phaseOk (s : State) : Bool :=
  match s.phase with
  | .idle => true
  | .loading256 _ => true
  | .loading128 _ => true
  | .jumping256 load tab _ _ => if load then tab == .short else s.seeded256
  | .jumping128 load tab _ _ => if load then tab == .short else s.seeded128
  | .drawing256 req got => got.length < 4 && (req || !got.isEmpty)
  | .drawing128 req got => got.length < 2 && (req || !got.isEmpty)
  | .responding r => responseOk r

/-- The invariant of a block's state. -/
abbrev State.Inv (s : State) : Prop :=
  recordOk s = true ∧ phaseOk s = true ∧ s.taken.all responseOk = true

/-- The block's state after a list of commands executed one at a time, each response taken before the next (20_memory.md
R53, R55). The responses are the entries that `taken` gains, latest first. -/
def runCommands : List Instr → State → State
  | [], s => s
  | i :: rest, s => runCommands rest (takeResponse (nextOr s (exec i s)))

/-- A load command: one that gives an engine a full state (10_state.md R23). -/
def isLoad : Instr → Bool
  | .loadj256 _ _ _ _ => true
  | .load256 _ _ _ _ => true
  | .seedc256 _ => true
  | .seedm256 _ => true
  | .seede256 => true
  | .loadj128 _ _ => true
  | .load128 _ _ => true
  | .seedc128 _ => true
  | .seedm128 _ => true
  | .seede128 => true
  | .next256 => false
  | .jump256 => false
  | .ljump256 => false
  | .rdmin256 => false
  | .rdmax256 => false
  | .next128 => false
  | .jump128 => false
  | .ljump128 => false
  | .rdmin128 => false
  | .rdmax128 => false

/-- Whether the engine a command addresses is seeded (10_state.md R23). -/
def engineSeeded (e : Engine) (s : State) : Bool :=
  match e with
  | .g256 => s.seeded256
  | .g128 => s.seeded128

/-- A command that needs a seeded engine: `NEXTe`, `JUMPe` or `LJUMPe` (60_exceptions.md R235). -/
def needsSeed : Instr → Bool
  | .next256 => true
  | .jump256 => true
  | .ljump256 => true
  | .next128 => true
  | .jump128 => true
  | .ljump128 => true
  | .loadj256 _ _ _ _ => false
  | .load256 _ _ _ _ => false
  | .seedc256 _ => false
  | .seedm256 _ => false
  | .seede256 => false
  | .rdmin256 => false
  | .rdmax256 => false
  | .loadj128 _ _ => false
  | .load128 _ _ => false
  | .seedc128 _ => false
  | .seedm128 _ => false
  | .seede128 => false
  | .rdmin128 => false
  | .rdmax128 => false

/-- The answer the provider gives to the draw after `k` others: the `k`-th it has ready, or past their end a free value. -/
def drawAnswer (s : State) (k : Nat) : Draw :=
  match s.entIn[k]? with
  | some a => a
  | none => Config.entropyAnswer (s.free + (k - s.entIn.length))

/-- The block after a list of clock edges, first first. -/
def runEdges (ps : List PortIn) (s : State) : State := ps.foldl (fun t p => clockEdge p t) s

/-- The XOR, over every `k < n` with bit `k` of the table set, of the state after `k` steps. The table read as a
polynomial in the step, applied to `s` (40_datapath.md R110, R112). -/
def xorOfSteps {W : Type} (xor : W → W → W) (zero : W) (advance : W → W) (table : List Word) (s : W) : Nat → W
  | 0 => zero
  | n + 1 =>
    let below := xorOfSteps xor zero advance table s n
    if tableBit table n then xor below (advance^[n] s) else below

/-- How many of the next `n` draws a `SEEDE` makes: it stops at the first that fails (60_exceptions.md R236). -/
def drawsMade : Nat → Provider → Nat
  | 0, _ => 0
  | n + 1, p =>
    match entropyDraw p with
    | (.ok _, q) => drawsMade n q + 1
    | (.fail, _) => 1

/-- The answers that the next `n` draws of one `SEEDE` are given, first first: up to the first `fail`, after which it draws
no more (R236). -/
def drawsUsed : Nat → Provider → List Draw
  | 0, _ => []
  | n + 1, p =>
    match entropyDraw p with
    | (.ok w, q) => .ok w :: drawsUsed n q
    | (.fail, _) => [.fail]

/-- How many words a command draws if no draw fails: four for `SEEDE256`, two for `SEEDE128` (20_memory.md R63), and none
for any other command (10_state.md R31). -/
def wordsDrawn : Instr → Nat
  | .seede256 => 4
  | .seede128 => 2
  | .next256 => 0
  | .jump256 => 0
  | .ljump256 => 0
  | .loadj256 _ _ _ _ => 0
  | .load256 _ _ _ _ => 0
  | .seedc256 _ => 0
  | .seedm256 _ => 0
  | .rdmin256 => 0
  | .rdmax256 => 0
  | .next128 => 0
  | .jump128 => 0
  | .ljump128 => 0
  | .loadj128 _ _ => 0
  | .load128 _ _ => 0
  | .seedc128 _ => 0
  | .seedm128 _ => 0
  | .rdmin128 => 0
  | .rdmax128 => 0

/-- The entropy draws of a list of commands executed one at a time from `s`: the answers given, first first. With no
`SEEDE` in the list there are none, whatever the provider holds (Laws/Draws.lean, `drawsOf_eq_nil`). -/
def drawsOf : List Instr → State → List Draw
  | [], _ => []
  | i :: rest, s => drawsUsed (wordsDrawn i) (provider s) ++ drawsOf rest (takeResponse (nextOr s (exec i s)))

/-- The cycles from the accepting edge to the first cycle with `rsp_valid = 1` (70_reset_and_hazards.md R280), where the
provider answers each draw at once: the first handshake of a `SEEDE` takes one cycle, and each later one two, the edge
that raises `ent_req` and the edge that samples the answer. -/
def responseCycles (i : Instr) (s : State) : Nat :=
  match i with
  | .next256 => 1
  | .jump256 => if s.seeded256 then 257 else 1
  | .ljump256 => if s.seeded256 then 257 else 1
  | .loadj256 _ _ _ _ => 258
  | .load256 _ _ _ _ => 1
  | .seedc256 _ => 258
  | .seedm256 _ => 1
  | .seede256 => 1 + (2 * drawsMade 4 (provider s) - 1)
  | .rdmin256 => 1
  | .rdmax256 => 1
  | .next128 => 1
  | .jump128 => if s.seeded128 then 129 else 1
  | .ljump128 => if s.seeded128 then 129 else 1
  | .loadj128 _ _ => 130
  | .load128 _ _ => 1
  | .seedc128 _ => 130
  | .seedm128 _ => 1
  | .seede128 => 1 + (2 * drawsMade 2 (provider s) - 1)
  | .rdmin128 => 1
  | .rdmax128 => 1

end Sys2Proof.Machine
end

