-- ==== Sys2Proof/Certificates/Slice0/Obligations.lean ====
section
/-! DEFINITION. What is claimed of the model, one `def Obligations.<Name> : Prop` each. A claim of a command's result is
an equation of whole states, so it says the command's frame too: `{ s with … }` changes the fields it names and no
other. -/

open Sys2Proof Sys2Proof.Machine

/-! ## Encoding -/

/-- Encoding, R75 and R74: for every instruction with every operand, decoding its encoding gives it back. -/
def Obligations.DecodeOfEncodeIsTheInstruction : Prop := ∀ i : Instr, decode (encode i) = .ok i

/-- R75: each of the 20 command words decodes to its command, with the operand words R74 gives it, whatever the operand
words are; and a word that decodes is one of the 20, all 8 bits matched. -/
def Obligations.CommandMapDecodes : Prop :=
  (∀ d0 d1 d2 d3 : Word,
    decode ⟨0b00000000, d0, d1, d2, d3⟩ = .ok .next256 ∧
    decode ⟨0b00000001, d0, d1, d2, d3⟩ = .ok .jump256 ∧
    decode ⟨0b00000010, d0, d1, d2, d3⟩ = .ok .ljump256 ∧
    decode ⟨0b00000011, d0, d1, d2, d3⟩ = .ok (.loadj256 d0 d1 d2 d3) ∧
    decode ⟨0b00000100, d0, d1, d2, d3⟩ = .ok (.load256 d0 d1 d2 d3) ∧
    decode ⟨0b00000101, d0, d1, d2, d3⟩ = .ok (.seedc256 d0) ∧
    decode ⟨0b00000110, d0, d1, d2, d3⟩ = .ok (.seedm256 d0) ∧
    decode ⟨0b00000111, d0, d1, d2, d3⟩ = .ok .seede256 ∧
    decode ⟨0b00001000, d0, d1, d2, d3⟩ = .ok .rdmin256 ∧
    decode ⟨0b00001001, d0, d1, d2, d3⟩ = .ok .rdmax256 ∧
    decode ⟨0b10000000, d0, d1, d2, d3⟩ = .ok .next128 ∧
    decode ⟨0b10000001, d0, d1, d2, d3⟩ = .ok .jump128 ∧
    decode ⟨0b10000010, d0, d1, d2, d3⟩ = .ok .ljump128 ∧
    decode ⟨0b10000011, d0, d1, d2, d3⟩ = .ok (.loadj128 d0 d1) ∧
    decode ⟨0b10000100, d0, d1, d2, d3⟩ = .ok (.load128 d0 d1) ∧
    decode ⟨0b10000101, d0, d1, d2, d3⟩ = .ok (.seedc128 d0) ∧
    decode ⟨0b10000110, d0, d1, d2, d3⟩ = .ok (.seedm128 d0) ∧
    decode ⟨0b10000111, d0, d1, d2, d3⟩ = .ok .seede128 ∧
    decode ⟨0b10001000, d0, d1, d2, d3⟩ = .ok .rdmin128 ∧
    decode ⟨0b10001001, d0, d1, d2, d3⟩ = .ok .rdmax128) ∧
  (∀ (c : Command) (i : Instr), decode c = .ok i →
    c.word ∈ ([0x00, 0x01, 0x02, 0x03, 0x04, 0x05, 0x06, 0x07, 0x08, 0x09,
      0x80, 0x81, 0x82, 0x83, 0x84, 0x85, 0x86, 0x87, 0x88, 0x89] : List CmdWord))

/-- R73, and the legality check of R77 and R78: a word with `RSV != 000` is refused for it, whatever `E` and `OP` hold; a
word with `RSV = 000` and `OP >= 0xA` is refused for that; every other word is one of the legal ones; and 236 of the 256
words are illegal. -/
def Obligations.IllegalWordsAreTheOther236 : Prop :=
  (∀ c : Command, c.word.extractLsb' 4 3 ≠ 0#3 → decode c = .error .reservedFieldNotZero) ∧
  (∀ c : Command, c.word.extractLsb' 4 3 = 0#3 → 0xA ≤ (c.word.extractLsb' 0 4).toNat →
    decode c = .error .operationNotDefined) ∧
  (∀ c : Command, c.word.extractLsb' 4 3 = 0#3 → (c.word.extractLsb' 0 4).toNat < 0xA → ∃ i, decode c = .ok i) ∧
  (∀ c : Command, legalWord c.word = true ↔ ∃ i, decode c = .ok i) ∧
  ((List.range 256).filter fun n => !legalWord (BitVec.ofNat 8 n)).length = 236

/-- R74: a command ignores every operand word it does not read. Two commands of one word that agree on the operand words
the table of R72 lists for it decode alike. -/
def Obligations.DecodeReadsOnlyTheListedOperands : Prop :=
  ∀ c c' : Command, c.word = c'.word →
    (c.word ∈ ([0x03, 0x04, 0x05, 0x06, 0x83, 0x84, 0x85, 0x86] : List CmdWord) → c.din0 = c'.din0) →
    (c.word ∈ ([0x03, 0x04, 0x83, 0x84] : List CmdWord) → c.din1 = c'.din1) →
    (c.word ∈ ([0x03, 0x04] : List CmdWord) → c.din2 = c'.din2 ∧ c.din3 = c'.din3) →
    decode c = decode c'

/-! ## The step -/

/-- R77, R53: on a block with no command in it, when the command the host offers next decodes to `i`, the step is `exec i`
on the state from which the command has been accepted, and then the host takes the one response `exec` left on offer. -/
def Obligations.StepRunsTheDecodedCommand : Prop :=
  ∀ (s : State) (c : Command) (rest : List HostInput) (i : Instr),
    s.phase = .idle → s.hostIn = .command c :: rest → decode c = .ok i →
    ∃ t r, exec i { s with hostIn := rest } = .next t ∧ t.phase = .responding r ∧
      step s = .next { t with phase := .idle, taken := r :: s.taken }

/-- R234: an illegal command word ends in `ERROR(1)`, makes the error record if it is the first error, and changes
nothing else, in whatever state the engines are; and the rule's example, `0x0A` right after reset. -/
def Obligations.IllegalCommandOnlyRecordsTheError : Prop :=
  (∀ (s : State) (c : Command) (rest : List HostInput),
    s.phase = .idle → s.hostIn = .command c :: rest →
    (c.word.extractLsb' 4 3 ≠ 0#3 ∨ 0xA ≤ (c.word.extractLsb' 0 4).toNat) →
    step s = .next { s with
      hostIn := rest
      taken := .error 1 :: s.taken
      err := true
      ecode := if s.err then s.ecode else 1
      ecmd := if s.err then s.ecmd else c.word }) ∧
  (∀ d0 d1 d2 d3 : Word,
    step { State.reset with hostIn := [.command ⟨0x0A, d0, d1, d2, d3⟩] } =
      .next { State.reset with taken := [.error 1], err := true, ecode := 1, ecmd := 0x0A })

/-- R54, R53: the step of a block that is offered a command always answers a next state, in which the block is idle again,
that command has left the host's list, and the host has taken exactly one response more. -/
def Obligations.EveryCommandGetsOneResponse : Prop :=
  ∀ (s : State) (c : Command) (rest : List HostInput), s.phase = .idle → s.hostIn = .command c :: rest →
    ∃ t r, step s = .next t ∧ t.phase = .idle ∧ t.hostIn = rest ∧ t.taken = r :: s.taken

/-- R24, R55: the host's command stream takes the place of a program: each command is executed once, in the order
offered, on the state all the earlier ones left. -/
def Obligations.CommandStreamRunsInOrder : Prop :=
  ∀ (is : List Instr) (s : State) (rest : List HostInput), s.phase = .idle →
    s.hostIn = is.map (fun i => .command (encode i)) ++ rest →
    Host.Core.run core is.length s = .next { runCommands is s with hostIn := rest }

/-! ## Datapath -/

/-- R100: `ROTL64` is the formula, and bit by bit `ROTL64(x, k)[i] = x[(i - k) mod 64]`, for every `k` it has a value for. -/
def Obligations.RotlMovesEveryBit : Prop :=
  ∀ (x : Word) (k : Nat) (h : 0 < k ∧ k < 64), rotl x k h = (x <<< k) ||| (x >>> (64 - k)) ∧
    ∀ i : Nat, i < 64 → ((rotl x k h).getLsbD i : Bool) = x.getLsbD (((i : Int) - (k : Int)) % 64).toNat

/-- R106: `SCR` is a bijection on 64-bit values, with the rule's values of it. -/
def Obligations.ScramblerIsABijection : Prop :=
  Function.Bijective scr ∧ scr 0 = 0 ∧ scr 1 = 0x1680 ∧ scr 2 = 0x2d00 ∧
    scr 0xffffffffffffffff = 0xffffffffffffedf7 ∧ scr 0x8000000000000000 = 0x240

/-- R132, R182: both steps in closed form, from the words before the step. -/
def Obligations.StepsInClosedForm : Prop :=
  (∀ a b c d : Word, step256 ⟨a, b, c, d⟩ =
    (scr b, ⟨a ^^^ d ^^^ b, b ^^^ c ^^^ a, c ^^^ a ^^^ (b <<< 17), rotl (d ^^^ b) 45⟩)) ∧
  (∀ a b : Word, step128 ⟨a, b⟩ =
    (scr a, ⟨rotl a 24 ^^^ (a ^^^ b) ^^^ ((a ^^^ b) <<< 16), rotl (a ^^^ b) 37⟩))

/-- R113: each step's state update is invertible, so no non-zero state steps to zero and no two states to one. -/
def Obligations.StepsAreInvertible : Prop :=
  Function.Bijective (fun s => (step256 s).2) ∧ Function.Bijective (fun s => (step128 s).2)

/-- R110: the jump algorithm on any table gives the XOR of the states after `k` steps over every `k` whose bit of the table
is 1: 64 steps a table word, each word from its bit 0, and the state XORed at a bit is the state before that bit's advance. -/
def Obligations.JumpXorsTheStepsOfTheSetBits : Prop :=
  (∀ (s : Words256) (table : List Word),
    jump256 s table = xorOfSteps xor256 zero256 advance256 table s (64 * table.length)) ∧
  (∀ (s : Words128) (table : List Word),
    jump128 s table = xorOfSteps xor128 zero128 advance128 table s (64 * table.length))

/-- R113: the jump algorithm is linear over XOR and maps the all-zero state to itself, with any table. -/
def Obligations.JumpIsLinear : Prop :=
  (∀ (a b : Words256) (table : List Word), jump256 (xor256 a b) table = xor256 (jump256 a table) (jump256 b table)) ∧
  (∀ (a b : Words128) (table : List Word), jump128 (xor128 a b) table = xor128 (jump128 a table) (jump128 b table)) ∧
  (∀ table : List Word, jump256 ⟨0, 0, 0, 0⟩ table = ⟨0, 0, 0, 0⟩) ∧
  (∀ table : List Word, jump128 ⟨0, 0⟩ table = ⟨0, 0⟩)

/-- R112, R113: each jump is a power of the step. `JUMP256` advances by exactly 2^128 steps, `LJUMP256` by 2^192,
`JUMP128` by 2^64 and `LJUMP128` by 2^96, from every state. -/
def Obligations.JumpsArePowersOfTheStep : Prop :=
  (∀ s : Words256, jump256 s jumpTable256 = advance256^[2 ^ 128] s) ∧
  (∀ s : Words256, jump256 s ljumpTable256 = advance256^[2 ^ 192] s) ∧
  (∀ s : Words128, jump128 s jumpTable128 = advance128^[2 ^ 64] s) ∧
  (∀ s : Words128, jump128 s ljumpTable128 = advance128^[2 ^ 96] s)

/-- R113, R141, R150, R191, R200: every jump is a bijection, so it takes a non-zero state to a non-zero state; and so a
seed command leaves a non-zero state, whatever its seed. -/
def Obligations.JumpsKeepNonZeroStates : Prop :=
  (∀ tab : JumpKind, Function.Bijective fun s => jump256 s (table256 tab)) ∧
  (∀ tab : JumpKind, Function.Bijective fun s => jump128 s (table128 tab)) ∧
  (∀ (tab : JumpKind) (s : Words256), s ≠ ⟨0, 0, 0, 0⟩ → jump256 s (table256 tab) ≠ ⟨0, 0, 0, 0⟩) ∧
  (∀ (tab : JumpKind) (s : Words128), s ≠ ⟨0, 0⟩ → jump128 s (table128 tab) ≠ ⟨0, 0⟩) ∧
  (∀ (s : State) (s0 : Word), ∃ t, exec (.seedc256 s0) s = .next t ∧ t.s256 ≠ ⟨0, 0, 0, 0⟩) ∧
  (∀ (s : State) (s0 : Word), ∃ t, exec (.seedc128 s0) s = .next t ∧ t.s128 ≠ ⟨0, 0⟩) ∧
  (∀ (s : State) (s0 : Word), ∃ t, exec (.seedm256 s0) s = .next t ∧ t.s256 ≠ ⟨0, 0, 0, 0⟩) ∧
  (∀ (s : State) (s0 : Word), ∃ t, exec (.seedm128 s0) s = .next t ∧ t.s128 ≠ ⟨0, 0⟩)

/-- R133, R183: the all-zero state is the fixed point: the step maps it to itself with output 0, and a seeded engine in it
answers every `NEXT` with `DATA(0)` and stays there, by `NEXT`, `JUMP` and `LJUMP`, with no error. -/
def Obligations.AllZeroIsTheFixedPoint : Prop :=
  step256 ⟨0, 0, 0, 0⟩ = (0, ⟨0, 0, 0, 0⟩) ∧ step128 ⟨0, 0⟩ = (0, ⟨0, 0⟩) ∧
  (∀ s : State, s.seeded256 = true → s.s256 = ⟨0, 0, 0, 0⟩ →
    exec .next256 s = .next { s with phase := .responding (.data 0) } ∧
    exec .jump256 s = .next { s with phase := .responding .done } ∧
    exec .ljump256 s = .next { s with phase := .responding .done }) ∧
  (∀ s : State, s.seeded128 = true → s.s128 = ⟨0, 0⟩ →
    exec .next128 s = .next { s with phase := .responding (.data 0) } ∧
    exec .jump128 s = .next { s with phase := .responding .done } ∧
    exec .ljump128 s = .next { s with phase := .responding .done })

/-! ## The commands -/

/-- R134, `NEXT256`: its encoding; on a seeded engine the output and the four words from the words before; on an engine
not seeded `UNSEEDED(0x00)` and no word changed; the all-zero corner; and the rule's example with its second output. -/
def Obligations.Next256Result : Prop :=
  (∀ d0 d1 d2 d3 : Word, decode ⟨0x00, d0, d1, d2, d3⟩ = .ok .next256) ∧
  (∀ (s : State) (a b c d : Word), s.seeded256 = true → s.s256 = ⟨a, b, c, d⟩ →
    exec .next256 s = .next { s with
      s256 := ⟨a ^^^ (d ^^^ b), b ^^^ (c ^^^ a), (c ^^^ a) ^^^ (b <<< 17), ((d ^^^ b) <<< 45) ||| ((d ^^^ b) >>> 19)⟩
      phase := .responding (.data ((((b * 5) <<< 7) ||| ((b * 5) >>> 57)) * 9)) }) ∧
  (∀ s : State, s.seeded256 = false → exec .next256 s = .next { s with
    err := true
    ecode := if s.err then s.ecode else 2
    ecmd := if s.err then s.ecmd else 0x00
    phase := .responding (.error 2) }) ∧
  (∀ s : State, s.seeded256 = true → s.s256 = ⟨0, 0, 0, 0⟩ →
    exec .next256 s = .next { s with phase := .responding (.data 0) }) ∧
  (∀ s : State, s.seeded256 = true → s.s256 = ⟨1, 2, 3, 4⟩ →
    exec .next256 s = .next { s with
      s256 := ⟨0x7, 0x0, 0x40002, 0xc00000000000⟩, phase := .responding (.data 0x0000000000002d00) }) ∧
  (∀ s : State, s.seeded256 = true → s.s256 = ⟨0x7, 0x0, 0x40002, 0xc00000000000⟩ →
    ∃ t, exec .next256 s = .next t ∧ t.phase = .responding (.data 0))

/-- R184, `NEXT128`: its encoding; on a seeded engine the output and both words from the words before; on an engine not
seeded `UNSEEDED(0x80)` and no word changed; the corners `(0, 0)` and `(0, 1)`; and the rule's example. -/
def Obligations.Next128Result : Prop :=
  (∀ d0 d1 d2 d3 : Word, decode ⟨0x80, d0, d1, d2, d3⟩ = .ok .next128) ∧
  (∀ (s : State) (a b : Word), s.seeded128 = true → s.s128 = ⟨a, b⟩ →
    exec .next128 s = .next { s with
      s128 := ⟨((a <<< 24) ||| (a >>> 40)) ^^^ (b ^^^ a) ^^^ ((b ^^^ a) <<< 16), ((b ^^^ a) <<< 37) ||| ((b ^^^ a) >>> 27)⟩
      phase := .responding (.data ((((a * 5) <<< 7) ||| ((a * 5) >>> 57)) * 9)) }) ∧
  (∀ s : State, s.seeded128 = false → exec .next128 s = .next { s with
    err := true
    ecode := if s.err then s.ecode else 2
    ecmd := if s.err then s.ecmd else 0x80
    phase := .responding (.error 2) }) ∧
  (∀ s : State, s.seeded128 = true → s.s128 = ⟨0, 0⟩ →
    exec .next128 s = .next { s with phase := .responding (.data 0) }) ∧
  (∀ (s : State) (x : Word), s.seeded128 = true → s.s128 = ⟨0, x⟩ → x ≠ 0 →
    ∃ t, exec .next128 s = .next t ∧ t.phase = .responding (.data 0) ∧ t.s128 ≠ ⟨0, x⟩) ∧
  step128 ⟨0, 1⟩ = (0, ⟨0x10001, 0x2000000000⟩) ∧
  (∀ s : State, s.seeded128 = true → s.s128 = ⟨1, 2⟩ →
    exec .next128 s = .next { s with
      s128 := ⟨0x1030003, 0x6000000000⟩, phase := .responding (.data 0x0000000000001680) })

/-- R141, R143, `JUMP256` and `LJUMP256`: on a seeded engine the words become the jump of the words with the table of R140
or R142, and the response is `DONE`; on an engine not seeded `UNSEEDED` and no word changed; and the rules' examples. -/
def Obligations.JumpsOfG256Result : Prop :=
  (∀ s : State, s.seeded256 = true →
    exec .jump256 s = .next { s with
      s256 := jump256 s.s256 [0x180ec6d33cfd0aba, 0xd5a61266f0c9392c, 0xa9582618e03fc9aa, 0x39abdc4529b1661c]
      phase := .responding .done } ∧
    exec .ljump256 s = .next { s with
      s256 := jump256 s.s256 [0x76e15d3efefdcbbf, 0xc5004e441c522fb3, 0x77710069854ee241, 0x39109bb02acbe635]
      phase := .responding .done }) ∧
  (∀ s : State, s.seeded256 = false →
    exec .jump256 s = .next { s with
      err := true
      ecode := if s.err then s.ecode else 2
      ecmd := if s.err then s.ecmd else 0x01
      phase := .responding (.error 2) } ∧
    exec .ljump256 s = .next { s with
      err := true
      ecode := if s.err then s.ecode else 2
      ecmd := if s.err then s.ecmd else 0x02
      phase := .responding (.error 2) }) ∧
  (∀ s : State, s.seeded256 = true → s.s256 = ⟨1, 2, 3, 4⟩ →
    exec .jump256 s = .next { s with
      s256 := ⟨0x8c7a153956b5f3d1, 0x701f1a713401d85e, 0x6527f66a65469085, 0x8386b786c4408050⟩
      phase := .responding .done } ∧
    exec .ljump256 s = .next { s with
      s256 := ⟨0x096a8eb71295a400, 0xdbf84991e50f4516, 0x534ee745810d2a0e, 0x31655ca1a2215bf1⟩
      phase := .responding .done })

/-- R191, R193, `JUMP128` and `LJUMP128`: on a seeded engine the words become the jump of the words with the table of R190
or R192, and the response is `DONE`; on an engine not seeded `UNSEEDED` and no word changed; and the rules' examples. -/
def Obligations.JumpsOfG128Result : Prop :=
  (∀ s : State, s.seeded128 = true →
    exec .jump128 s = .next { s with
      s128 := jump128 s.s128 [0xdf900294d8f554a5, 0x170865df4b3201fc], phase := .responding .done } ∧
    exec .ljump128 s = .next { s with
      s128 := jump128 s.s128 [0xd2a98b26625eee7b, 0xdddf9b1090aa7ac1], phase := .responding .done }) ∧
  (∀ s : State, s.seeded128 = false →
    exec .jump128 s = .next { s with
      err := true
      ecode := if s.err then s.ecode else 2
      ecmd := if s.err then s.ecmd else 0x81
      phase := .responding (.error 2) } ∧
    exec .ljump128 s = .next { s with
      err := true
      ecode := if s.err then s.ecode else 2
      ecmd := if s.err then s.ecmd else 0x82
      phase := .responding (.error 2) }) ∧
  (∀ s : State, s.seeded128 = true → s.s128 = ⟨1, 2⟩ →
    exec .jump128 s = .next { s with
      s128 := ⟨0x66fbd4be1df0a7b5, 0x830c3ddbb4aa3172⟩, phase := .responding .done } ∧
    exec .ljump128 s = .next { s with
      s128 := ⟨0x3ce44494d47d323a, 0x2aa25ca8d61de643⟩, phase := .responding .done })

/-- R145, R195, `LOAD256` and `LOAD128`: in every state the words become the operands, the engine is seeded, and the
response is `DONE`; all-zero operands are no exception. `STATUS` mirrors the seeded bit. -/
def Obligations.LoadResult : Prop :=
  (∀ d0 d1 d2 d3 : Word, decode ⟨0x04, d0, d1, d2, d3⟩ = .ok (.load256 d0 d1 d2 d3)) ∧
  (∀ d0 d1 d2 d3 : Word, decode ⟨0x84, d0, d1, d2, d3⟩ = .ok (.load128 d0 d1)) ∧
  (∀ (s : State) (w0 w1 w2 w3 : Word), exec (.load256 w0 w1 w2 w3) s =
    .next { s with s256 := ⟨w0, w1, w2, w3⟩, seeded256 := true, phase := .responding .done }) ∧
  (∀ (s : State) (w0 w1 : Word), exec (.load128 w0 w1) s =
    .next { s with s128 := ⟨w0, w1⟩, seeded128 := true, phase := .responding .done }) ∧
  (∀ (s : State) (w0 w1 w2 w3 : Word), ∃ t, exec (.load256 w0 w1 w2 w3) s = .next t ∧ (status t).getLsbD 1 = true) ∧
  (∀ (s : State) (w0 w1 : Word), ∃ t, exec (.load128 w0 w1) s = .next t ∧ (status t).getLsbD 2 = true)

/-- R146, `LOADJ256`: its encoding; in every state the words become one short jump of the operands, the engine is seeded,
and the response is `DONE`; all-zero operands give the all-zero state; and the rule's example with the next output. -/
def Obligations.Loadj256Result : Prop :=
  (∀ d0 d1 d2 d3 : Word, decode ⟨0x03, d0, d1, d2, d3⟩ = .ok (.loadj256 d0 d1 d2 d3)) ∧
  (∀ (s : State) (w0 w1 w2 w3 : Word), exec (.loadj256 w0 w1 w2 w3) s = .next { s with
    s256 := jump256 ⟨w0, w1, w2, w3⟩
      [0x180ec6d33cfd0aba, 0xd5a61266f0c9392c, 0xa9582618e03fc9aa, 0x39abdc4529b1661c]
    seeded256 := true
    phase := .responding .done }) ∧
  (∀ s : State, exec (.loadj256 0 0 0 0) s =
    .next { s with s256 := ⟨0, 0, 0, 0⟩, seeded256 := true, phase := .responding .done }) ∧
  (∀ s : State, exec (.loadj256 1 2 3 4) s = .next { s with
    s256 := ⟨0x8c7a153956b5f3d1, 0x701f1a713401d85e, 0x6527f66a65469085, 0x8386b786c4408050⟩
    seeded256 := true
    phase := .responding .done }) ∧
  (∀ s : State, s.seeded256 = true →
    s.s256 = ⟨0x8c7a153956b5f3d1, 0x701f1a713401d85e, 0x6527f66a65469085, 0x8386b786c4408050⟩ →
    ∃ t, exec .next256 s = .next t ∧ t.phase = .responding (.data 0xbbd2f312298443d8))

/-- R196, `LOADJ128`: its encoding; in every state the words become one short jump of the operands, the engine is seeded,
and the response is `DONE`; all-zero operands give the all-zero state; and the rule's example with the next output. -/
def Obligations.Loadj128Result : Prop :=
  (∀ d0 d1 d2 d3 : Word, decode ⟨0x83, d0, d1, d2, d3⟩ = .ok (.loadj128 d0 d1)) ∧
  (∀ (s : State) (w0 w1 : Word), exec (.loadj128 w0 w1) s = .next { s with
    s128 := jump128 ⟨w0, w1⟩ [0xdf900294d8f554a5, 0x170865df4b3201fc]
    seeded128 := true
    phase := .responding .done }) ∧
  (∀ s : State, exec (.loadj128 0 0) s =
    .next { s with s128 := ⟨0, 0⟩, seeded128 := true, phase := .responding .done }) ∧
  (∀ s : State, exec (.loadj128 1 2) s = .next { s with
    s128 := ⟨0x66fbd4be1df0a7b5, 0x830c3ddbb4aa3172⟩, seeded128 := true, phase := .responding .done }) ∧
  (∀ s : State, s.seeded128 = true → s.s128 = ⟨0x66fbd4be1df0a7b5, 0x830c3ddbb4aa3172⟩ →
    ∃ t, exec .next128 s = .next t ∧ t.phase = .responding (.data 0x2232b5a1a6bd6889))

/-- R150, R200, `SEEDC256` and `SEEDC128`: in every state the words become one short jump of the words derived from the
seed, which are not all zero; the engine is seeded, and the response is `DONE`; with the rules' examples. -/
def Obligations.SeedcResult : Prop :=
  (∀ (s : State) (s0 : Word), exec (.seedc256 s0) s = .next { s with
    s256 := jump256 ⟨s0, s0 ^^^ 0x000000000f00f00f, s0 ^^^ 0x00000000f00f00f0, s0 ^^^ 0x0000000f00f00f00⟩
      [0x180ec6d33cfd0aba, 0xd5a61266f0c9392c, 0xa9582618e03fc9aa, 0x39abdc4529b1661c]
    seeded256 := true
    phase := .responding .done }) ∧
  (∀ s0 : Word, s0 ≠ 0 ∨ s0 ^^^ 0x000000000f00f00f ≠ 0) ∧
  (∀ s : State, exec (.seedc256 0) s = .next { s with
    s256 := ⟨0xcd46c5ba2a7b36dd, 0x78e9baca3d254f1b, 0xa0dd77dbadfc18e5, 0x516f97c02cfa56d0⟩
    seeded256 := true
    phase := .responding .done }) ∧
  (∀ (s : State) (s0 : Word), exec (.seedc128 s0) s = .next { s with
    s128 := jump128 ⟨s0, ~~~s0 + 0x6fbe605⟩ [0xdf900294d8f554a5, 0x170865df4b3201fc]
    seeded128 := true
    phase := .responding .done }) ∧
  (∀ s0 : Word, s0 ≠ 0 ∨ ~~~s0 + 0x6fbe605 ≠ 0) ∧
  (∀ s : State, exec (.seedc128 42) s = .next { s with
    s128 := ⟨0x33c32059b8b7b127, 0xbd32c7f49ef11f33⟩, seeded128 := true, phase := .responding .done })

/-- R152, `SEEDM256`: its encoding; in every state the words are those derived from the seed with no jump, never all zero;
the engine is seeded, and the response is `DONE`; with the rule's example. `K_SEEDM256` is opaque, so the claim holds
whatever its value is. -/
def Obligations.Seedm256Result : Prop :=
  (∀ d0 d1 d2 d3 : Word, decode ⟨0x06, d0, d1, d2, d3⟩ = .ok (.seedm256 d0)) ∧
  (∀ (s : State) (s0 s1 s2 : Word), s1 = s0 ^^^ 0xf0ff00dd00f0f00c →
    s2 = ((s1 <<< 45) ||| (s1 >>> 19)) ^^^ 0xffff00f0dd0f00f7 →
    exec (.seedm256 s0) s = .next { s with
      s256 := ⟨s0, s1, s2, (((s2 + s1) <<< 17) ||| ((s2 + s1) >>> 47)) ^^^ Config.kSeedm256⟩
      seeded256 := true
      phase := .responding .done }) ∧
  (∀ k s0 : Word, seedm256Words k s0 ≠ ⟨0, 0, 0, 0⟩) ∧
  (∀ s : State, exec (.seedm256 42) s = .next { s with
    s256 := ⟨0x2a, 0xf0ff00dd00f0f026, 0xe1fbdeef3d14a0e9, 0xbf987c0b221fa5f5 ^^^ Config.kSeedm256⟩
    seeded256 := true
    phase := .responding .done })

/-- R202, `SEEDM128`: its encoding; in every state the words are those derived from the seed with no jump, never all zero;
the engine is seeded, and the response is `DONE`; with the rule's example. -/
def Obligations.Seedm128Result : Prop :=
  (∀ d0 d1 d2 d3 : Word, decode ⟨0x86, d0, d1, d2, d3⟩ = .ok (.seedm128 d0)) ∧
  (∀ (s : State) (s0 : Word), exec (.seedm128 s0) s = .next { s with
    s128 := ⟨s0, ~~~((s0 <<< 17) ||| (s0 >>> 47)) + 117171717⟩
    seeded128 := true
    phase := .responding .done }) ∧
  (∀ s0 : Word, seedm128Words s0 ≠ ⟨0, 0⟩) ∧
  (∀ s : State, exec (.seedm128 42) s = .next { s with
    s128 := ⟨0x2a, 0x6a7e604⟩, seeded128 := true, phase := .responding .done })

/-- R155, R63, `SEEDE256`: its encoding; if the next four answers of the provider are words, they become the state words in
that order, the engine is seeded, and the response is `DONE`; if the answer after `k` words is `fail`, no further draw is
made, no state word changes, the engine is not seeded, and the error is `ENTROPY_FAIL(0x07)`. -/
def Obligations.Seede256Result : Prop :=
  (∀ d0 d1 d2 d3 : Word, decode ⟨0x07, d0, d1, d2, d3⟩ = .ok .seede256) ∧
  (∀ (s : State) (w0 w1 w2 w3 : Word),
    drawAnswer s 0 = .ok w0 → drawAnswer s 1 = .ok w1 → drawAnswer s 2 = .ok w2 → drawAnswer s 3 = .ok w3 →
    exec .seede256 s = .next { s with
      s256 := ⟨w0, w1, w2, w3⟩
      seeded256 := true
      phase := .responding .done
      entIn := s.entIn.drop 4
      free := s.free + (4 - s.entIn.length) }) ∧
  (∀ (s : State) (k : Nat), k < 4 → (∀ j < k, ∃ w, drawAnswer s j = .ok w) → drawAnswer s k = .fail →
    exec .seede256 s = .next { s with
      seeded256 := false
      err := true
      ecode := if s.err then s.ecode else 3
      ecmd := if s.err then s.ecmd else 0x07
      phase := .responding (.error 3)
      entIn := s.entIn.drop (k + 1)
      free := s.free + (k + 1 - s.entIn.length) })

/-- R205, R63, `SEEDE128`: its encoding; if the next two answers of the provider are words, they become the state words in
that order, the engine is seeded, and the response is `DONE`; if the answer after `k` words is `fail`, no further draw is
made, no state word changes, the engine is not seeded, and the error is `ENTROPY_FAIL(0x87)`. -/
def Obligations.Seede128Result : Prop :=
  (∀ d0 d1 d2 d3 : Word, decode ⟨0x87, d0, d1, d2, d3⟩ = .ok .seede128) ∧
  (∀ (s : State) (w0 w1 : Word), drawAnswer s 0 = .ok w0 → drawAnswer s 1 = .ok w1 →
    exec .seede128 s = .next { s with
      s128 := ⟨w0, w1⟩
      seeded128 := true
      phase := .responding .done
      entIn := s.entIn.drop 2
      free := s.free + (2 - s.entIn.length) }) ∧
  (∀ (s : State) (k : Nat), k < 2 → (∀ j < k, ∃ w, drawAnswer s j = .ok w) → drawAnswer s k = .fail →
    exec .seede128 s = .next { s with
      seeded128 := false
      err := true
      ecode := if s.err then s.ecode else 3
      ecmd := if s.err then s.ecmd else 0x87
      phase := .responding (.error 3)
      entIn := s.entIn.drop (k + 1)
      free := s.free + (k + 1 - s.entIn.length) })

/-- R160, R161, R210, R211: the range reads answer 0 and 2^64 − 1 in every state, seeded or not, and change no state. -/
def Obligations.RangeReadsResult : Prop :=
  (∀ d0 d1 d2 d3 : Word,
    decode ⟨0x08, d0, d1, d2, d3⟩ = .ok .rdmin256 ∧ decode ⟨0x09, d0, d1, d2, d3⟩ = .ok .rdmax256 ∧
    decode ⟨0x88, d0, d1, d2, d3⟩ = .ok .rdmin128 ∧ decode ⟨0x89, d0, d1, d2, d3⟩ = .ok .rdmax128) ∧
  (∀ s : State,
    exec .rdmin256 s = .next { s with phase := .responding (.data 0) } ∧
    exec .rdmax256 s = .next { s with phase := .responding (.data 0xffffffffffffffff) } ∧
    exec .rdmin128 s = .next { s with phase := .responding (.data 0) } ∧
    exec .rdmax128 s = .next { s with phase := .responding (.data 0xffffffffffffffff) })

/-! ## Errors and the status register -/

/-- R232: raising an error records it if it is the first after reset, and ends the command with `ERROR(code)`; no state word
and no seeded bit changes, except that a failed draw clears the addressed engine's seeded bit first. -/
def Obligations.RaiseRecordsTheFirstError : Prop :=
  (∀ (e : ErrorCause) (c : CmdWord) (s : State), s.err = false →
    raise e c s = { s with err := true, ecode := errorCode e, ecmd := c, phase := .responding (.error (errorCode e)) }) ∧
  (∀ (e : ErrorCause) (c : CmdWord) (s : State), s.err = true →
    raise e c s = { s with phase := .responding (.error (errorCode e)) }) ∧
  (∀ s : State, entropyFail256 s = raise .entropyFail 0x07 { s with seeded256 := false } ∧
    entropyFail128 s = raise .entropyFail 0x87 { s with seeded128 := false }) ∧
  errorCode .illegalCmd = 1 ∧ errorCode .unseeded = 2 ∧ errorCode .entropyFail = 3 ∧
  (∀ code : BitVec 4, rspKind (.error code) = 2 ∧ (rspData (.error code)).toNat = code.toNat)

/-- R235: `NEXTe`, `JUMPe` and `LJUMPe` raise `UNSEEDED` on an engine that is not seeded, changing no state word whatever
it holds; no other command ever answers `ERROR(2)`, and these do so only then. -/
def Obligations.UnseededIsRaisedExactlyBySteppingAnUnseededEngine : Prop :=
  (∀ (i : Instr) (s : State), needsSeed i = true → engineSeeded i.engine s = false →
    exec i s = .next { s with
      err := true
      ecode := if s.err then s.ecode else 2
      ecmd := if s.err then s.ecmd else (encode i).word
      phase := .responding (.error 2) }) ∧
  (∀ (i : Instr) (s t : State), exec i s = .next t → t.phase = .responding (.error 2) →
    needsSeed i = true ∧ engineSeeded i.engine s = false) ∧
  (∀ d0 d1 d2 d3 : Word, step { State.reset with hostIn := [.command ⟨0x00, d0, d1, d2, d3⟩] } =
    .next { State.reset with taken := [.error 2], err := true, ecode := 2, ecmd := 0x00 })

/-- R233: a command that answers an error has changed no state word of either engine and no seeded bit, but that
`ERROR(3)` leaves the addressed engine's seeded bit 0. -/
def Obligations.ErrorsArePrecise : Prop :=
  ∀ (s t : State) (c : Command) (rest : List HostInput) (code : BitVec 4),
    s.phase = .idle → s.hostIn = .command c :: rest → step s = .next t → t.taken = .error code :: s.taken →
    t.s256 = s.s256 ∧ t.s128 = s.s128 ∧ t.phase = .idle ∧
    t.seeded256 = (s.seeded256 && !(code == 3 && !c.word.getLsbD 7)) ∧
    t.seeded128 = (s.seeded128 && !(code == 3 && c.word.getLsbD 7))

/-- R241: the error record is sticky. A step that does not take a reset leaves a record that has been made as it is; and
so does a clock edge with `rst = 0`. -/
def Obligations.ErrorRecordIsSticky : Prop :=
  (∀ s t : State, s.err = true → step s = .next t → (s.phase = .idle → s.hostIn.head? ≠ some .reset) →
    t.err = true ∧ t.ecode = s.ecode ∧ t.ecmd = s.ecmd) ∧
  (∀ (p : PortIn) (s : State), s.err = true → p.rst = false →
    (clockEdge p s).err = true ∧ (clockEdge p s).ecode = s.ecode ∧ (clockEdge p s).ecmd = s.ecmd)

/-- R26: where each field of `STATUS` stands in its 16 bits, what the mirrored bits mirror, and that `err` is
`STATUS.ERR`. -/
def Obligations.StatusRegisterFields : Prop :=
  ∀ s : State,
    (status s).getLsbD 0 = decide (s.phase ≠ .idle) ∧ (status s).getLsbD 1 = s.seeded256 ∧
    (status s).getLsbD 2 = s.seeded128 ∧ (status s).getLsbD 3 = s.err ∧
    (status s).extractLsb' 4 4 = s.ecode ∧ (status s).extractLsb' 8 8 = s.ecmd ∧
    ∀ rst, (portOut rst s).status = status s ∧ (portOut rst s).err = (status s).getLsbD 3

/-! ## Invariants and isolation -/

/-- The invariant of a block's state: the error record is one a command can have made (R230, R26), every response has a
code the block can give, and the command in progress is one it can be executing. Every step keeps it. -/
def Obligations.EveryStepKeepsTheInvariant : Prop := ∀ s t : State, s.Inv → step s = .next t → t.Inv

/-- The invariant holds at reset. -/
def Obligations.InvariantHoldsAtReset : Prop := State.reset.Inv

/-- Every clock edge, whatever is on the input ports, keeps the invariant. -/
def Obligations.EveryClockEdgeKeepsTheInvariant : Prop :=
  ∀ (p : PortIn) (s : State), s.Inv → (clockEdge p s).Inv

/-- R34, R31: a command leaves the other engine's words and seeded bit as they were; no command touches the host's list;
and only `SEEDE` draws. -/
def Obligations.CommandsLeaveTheOtherEngineAlone : Prop :=
  ∀ (i : Instr) (s t : State), exec i s = .next t →
    (i.engine = .g256 → t.s128 = s.s128 ∧ t.seeded128 = s.seeded128) ∧
    (i.engine = .g128 → t.s256 = s.s256 ∧ t.seeded256 = s.seeded256) ∧
    t.hostIn = s.hostIn ∧ t.taken = s.taken ∧
    (i ≠ .seede256 → i ≠ .seede128 → t.entIn = s.entIn ∧ t.free = s.free)

/-- R34: what a command does does not depend on the other engine: on a state with other words and another seeded bit
there, it does the same and leaves those as they were. -/
def Obligations.CommandsDoNotReadTheOtherEngine : Prop :=
  (∀ (i : Instr) (s t : State) (w : Words128) (b : Bool), i.engine = .g256 → exec i s = .next t →
    exec i { s with s128 := w, seeded128 := b } = .next { t with s128 := w, seeded128 := b }) ∧
  (∀ (i : Instr) (s t : State) (w : Words256) (b : Bool), i.engine = .g128 → exec i s = .next t →
    exec i { s with s256 := w, seeded256 := b } = .next { t with s256 := w, seeded256 := b })

/-- R165: two G256 engines, in any two blocks, given the same load command and then the same G256 commands, give the same
responses, word for word. Where `SEEDE256` is among the commands, the answers given to its draws must be the same in both
blocks; where it is not, there are no draws (`drawsOf` is empty on both sides, `drawsOf_eq_nil`), so nothing is asked of
the blocks' providers or histories. -/
def Obligations.G256OutputsAreReproducible : Prop :=
  ∀ (load : Instr) (is : List Instr) (s t : State), isLoad load = true →
    (∀ i ∈ load :: is, i.engine = .g256) → drawsOf (load :: is) s = drawsOf (load :: is) t →
    ∃ rs : List Response, rs.length = is.length + 1 ∧
      (runCommands (load :: is) s).taken = rs ++ s.taken ∧ (runCommands (load :: is) t).taken = rs ++ t.taken

/-- R215: the same of two G128 engines, with `SEEDE128` the one command that draws. -/
def Obligations.G128OutputsAreReproducible : Prop :=
  ∀ (load : Instr) (is : List Instr) (s t : State), isLoad load = true →
    (∀ i ∈ load :: is, i.engine = .g128) → drawsOf (load :: is) s = drawsOf (load :: is) t →
    ∃ rs : List Response, rs.length = is.length + 1 ∧
      (runCommands (load :: is) s).taken = rs ++ s.taken ∧ (runCommands (load :: is) t).taken = rs ++ t.taken

/-- R134, R184, R81: `k` `NEXT` commands on a seeded engine, `discard k`, step it `k` times, and the `j`-th response is the
output of the step from the words after `j` steps. -/
def Obligations.NextCommandsStepOneByOne : Prop :=
  (∀ (k : Nat) (s : State), s.seeded256 = true →
    (runCommands (Pseudo.discard .g256 k).expand s).s256 = advance256^[k] s.s256 ∧
    (runCommands (Pseudo.discard .g256 k).expand s).taken =
      ((List.range k).map fun j => Response.data (step256 (advance256^[j] s.s256)).1).reverse ++ s.taken) ∧
  (∀ (k : Nat) (s : State), s.seeded128 = true →
    (runCommands (Pseudo.discard .g128 k).expand s).s128 = advance128^[k] s.s128 ∧
    (runCommands (Pseudo.discard .g128 k).expand s).taken =
      ((List.range k).map fun j => Response.data (step128 (advance128^[j] s.s128)).1).reverse ++ s.taken)

/-- R245: worker `j` of a parallel stream. The base's load command and then `j` jumps leave the base's words jumped `j`
times, for each deterministic load command of either engine. -/
def Obligations.WorkerStreamsAreJumpsOfTheBase : Prop :=
  (∀ (j : Nat) (s : State) (w0 w1 w2 w3 : Word),
    (runCommands (workerProgram (.load256 w0 w1 w2 w3) j) s).s256 =
      (fun w => jump256 w jumpTable256)^[j] ⟨w0, w1, w2, w3⟩ ∧
    (runCommands (workerProgram (.loadj256 w0 w1 w2 w3) j) s).s256 =
      (fun w => jump256 w jumpTable256)^[j + 1] ⟨w0, w1, w2, w3⟩ ∧
    (runCommands (workerProgram (.seedc256 w0) j) s).s256 =
      (fun w => jump256 w jumpTable256)^[j + 1] (seedc256Words w0) ∧
    (runCommands (workerProgram (.seedm256 w0) j) s).s256 =
      (fun w => jump256 w jumpTable256)^[j] (seedm256Words Config.kSeedm256 w0)) ∧
  (∀ (j : Nat) (s : State) (w0 w1 : Word),
    (runCommands (workerProgram (.load128 w0 w1) j) s).s128 =
      (fun w => jump128 w jumpTable128)^[j] ⟨w0, w1⟩ ∧
    (runCommands (workerProgram (.loadj128 w0 w1) j) s).s128 =
      (fun w => jump128 w jumpTable128)^[j + 1] ⟨w0, w1⟩ ∧
    (runCommands (workerProgram (.seedc128 w0) j) s).s128 =
      (fun w => jump128 w jumpTable128)^[j + 1] (seedc128Words w0) ∧
    (runCommands (workerProgram (.seedm128 w0) j) s).s128 =
      (fun w => jump128 w jumpTable128)^[j] (seedm128Words w0))

/-! ## Reset -/

/-- R35: the values after reset that the spec gives, with the constants of R27, R140, R142, R190 and R192. Of the state
words, which the spec leaves unspecified, it claims only that they are unobservable: whatever they are, each command gives
the same response. -/
def Obligations.ResetStateValues : Prop :=
  State.reset.seeded256 = false ∧ State.reset.seeded128 = false ∧ status State.reset = 0 ∧
  minVal = 0 ∧ maxVal.toNat = 2 ^ 64 - 1 ∧
  jumpTable256 = [0x180ec6d33cfd0aba, 0xd5a61266f0c9392c, 0xa9582618e03fc9aa, 0x39abdc4529b1661c] ∧
  ljumpTable256 = [0x76e15d3efefdcbbf, 0xc5004e441c522fb3, 0x77710069854ee241, 0x39109bb02acbe635] ∧
  jumpTable128 = [0xdf900294d8f554a5, 0x170865df4b3201fc] ∧
  ljumpTable128 = [0xd2a98b26625eee7b, 0xdddf9b1090aa7ac1] ∧
  jumpRunning State.reset = false ∧ cmdReady false State.reset = true ∧
  (portOut false State.reset).rspValid = false ∧ (portOut false State.reset).entReq = false ∧
  (∀ (i : Instr) (w : Words256) (x : Words128), ∃ t u r, exec i State.reset = .next t ∧
    exec i { State.reset with s256 := w, s128 := x } = .next u ∧ t.phase = .responding r ∧ u.phase = .responding r)

/-- R260, R261: an edge with `rst = 1` leaves the reset values whatever the block was doing, one such edge is enough, no
command is accepted on it, and one can be once `rst` is 0 again; and so does a reset between commands as a step. A
response the host is not ready for is not taken; `ResetWinsOverTakingAResponse` has the edge on which it is ready. -/
def Obligations.ResetClearsTheBlock : Prop :=
  (∀ (p : PortIn) (s : State), p.rst = true →
    (clockEdge p s).seeded256 = false ∧ (clockEdge p s).seeded128 = false ∧ status (clockEdge p s) = 0 ∧
    jumpRunning (clockEdge p s) = false ∧ offered (clockEdge p s) = none ∧ entReq (clockEdge p s) = false ∧
    (p.rspReady = false ∨ offered s = none → (clockEdge p s).taken = s.taken) ∧
    cmdReady true s = false ∧ cmdReady false (clockEdge p s) = true) ∧
  (∀ (s : State) (rest : List HostInput), s.phase = .idle → s.hostIn = .reset :: rest →
    ∃ t, step s = .next t ∧ t.seeded256 = false ∧ t.seeded128 = false ∧ status t = 0 ∧ t.phase = .idle ∧
      t.hostIn = rest ∧ t.taken = s.taken)

/-! ## The block edge by edge -/

/-- R52, R53, R270: while a command is in the block it is not ready for another, and what is on the command port changes
nothing; on an idle block with `rst = 0` nothing happens until a command is offered. -/
def Obligations.BusyBlockIgnoresTheCommandPort : Prop :=
  (∀ (p : PortIn) (v : Bool) (c : Command) (s : State), s.phase ≠ .idle →
    clockEdge { p with cmdValid := v, cmd := c } s = clockEdge p s ∧ cmdReady p.rst s = false) ∧
  (∀ (p : PortIn) (s : State), s.phase = .idle → p.rst = false → p.cmdValid = false → clockEdge p s = s)

/-- R54, R53, R76: a response on offer drives `rsp_valid = 1` and its kind and data (0 and 0 for `DONE`, 1 and the word for
`DATA`, 2 and the zero-extended code for `ERROR`), is held until it is taken, and taking it makes the block ready. R30:
`rsp_kind` is never 3; and `rsp_valid` is 1 only while a response is on offer. -/
def Obligations.ResponseIsHeldUntilTaken : Prop :=
  (∀ (p : PortIn) (s : State) (r : Response), p.rst = false → s.phase = .responding r →
    (portOut false s).rspValid = true ∧
    (r = .done → (portOut false s).rsp = some (0, 0)) ∧
    (∀ v, r = .data v → (portOut false s).rsp = some (1, v)) ∧
    (∀ code, r = .error code → (portOut false s).rsp = some (2, code.setWidth 64)) ∧
    (p.rspReady = false → clockEdge p s = s) ∧
    (p.rspReady = true → clockEdge p s = { s with phase := .idle, taken := r :: s.taken } ∧
      cmdReady false (clockEdge p s) = true ∧ (status (clockEdge p s)).getLsbD 0 = false)) ∧
  (∀ (rst : Bool) (s : State) (kind : BitVec 2) (data : Word), (portOut rst s).rsp = some (kind, data) → kind ≠ 3) ∧
  (∀ (rst : Bool) (s : State), (portOut rst s).rspValid = true → ∃ r, s.phase = .responding r)

/-- R31, R63: the entropy handshake. On an idle block accepting `SEEDE256` or `SEEDE128` raises `ent_req`; nothing raises it
but that and the edge between two draws of one; while it is raised and the provider does not answer, nothing changes; the
edge of the answer lowers it; a word that is not the last is kept and the next draw begins; and a `fail` ends the command,
whatever is on `ent_data`. The model's reading (log entry 12, DEDUCED), no rule of the spec: `ent_req` is raised again on
the very next edge after a draw that is not the last, and the edge of the last answer itself writes the words and offers
the response. -/
def Obligations.EntropyHandshake : Prop :=
  (∀ (p : PortIn) (s : State), s.phase = .idle → p.rst = false → p.cmdValid = true →
    (p.cmd.word = 0x07 → clockEdge p s = { s with phase := .drawing256 true [] } ∧ entReq (clockEdge p s) = true) ∧
    (p.cmd.word = 0x87 → clockEdge p s = { s with phase := .drawing128 true [] } ∧ entReq (clockEdge p s) = true)) ∧
  (∀ (p : PortIn) (s : State), entReq (clockEdge p s) = true → entReq s = false →
    (s.phase = .idle ∧ p.cmdValid = true ∧ (p.cmd.word = 0x07 ∨ p.cmd.word = 0x87)) ∨
    (∃ got, s.phase = .drawing256 false got ∨ s.phase = .drawing128 false got)) ∧
  (∀ (p : PortIn) (s : State), entReq s = true → p.rst = false → p.entAck = false → clockEdge p s = s) ∧
  (∀ (p : PortIn) (s : State), entReq s = true → p.rst = false → p.entAck = true → entReq (clockEdge p s) = false) ∧
  (∀ (p : PortIn) (s : State) (got : List Word), p.rst = false → p.entAck = true → p.entFail = false →
    (s.phase = .drawing256 true got → got.length < 3 →
      clockEdge p s = { s with phase := .drawing256 false (got ++ [p.entData]) }) ∧
    (s.phase = .drawing128 true got → got.length < 1 →
      clockEdge p s = { s with phase := .drawing128 false (got ++ [p.entData]) }) ∧
    (∀ w0 w1 w2, s.phase = .drawing256 true got → got = [w0, w1, w2] → clockEdge p s =
      { s with s256 := ⟨w0, w1, w2, p.entData⟩, seeded256 := true, phase := .responding .done }) ∧
    (∀ w0, s.phase = .drawing128 true got → got = [w0] → clockEdge p s =
      { s with s128 := ⟨w0, p.entData⟩, seeded128 := true, phase := .responding .done })) ∧
  (∀ (p : PortIn) (s : State) (got : List Word), p.rst = false →
    (s.phase = .drawing256 false got → clockEdge p s = { s with phase := .drawing256 true got }) ∧
    (s.phase = .drawing128 false got → clockEdge p s = { s with phase := .drawing128 true got })) ∧
  (∀ (p : PortIn) (s : State) (got : List Word), p.rst = false → p.entAck = true → p.entFail = true →
    (s.phase = .drawing256 true got → clockEdge p s = entropyFail256 s) ∧
    (s.phase = .drawing128 true got → clockEdge p s = entropyFail128 s))

/-- R111, R110: the jump-advance state machine. Accepting a jump on a seeded engine, or the load cycle of a load command that
jumps, starts it, with `JIDX` and the accumulators at 0. From its start, after `m` edges with `rst = 0` it has done the
iterations of bits 0 to `m - 1`: `JIDX` is `m`, the accumulators hold the XOR of the states at the set bits, the engine's
words have advanced `m` steps, and the block is busy. After the last the words are the jump of the words at the start, and
the command responds. Nothing on the other ports changes that. The model's reading (log entry 12, DEDUCED, from R280's
counts and R23), no rule of the spec: the load cycle writes the words to be jumped, the words advance in place, the edge of
the last iteration also writes the words and offers the response, and a load command's seeded bit is set on that edge. -/
def Obligations.JumpMachineRunsOneBitAnEdge : Prop :=
  (∀ (p : PortIn) (s : State), s.phase = .idle → p.rst = false → p.cmdValid = true →
    (p.cmd.word = 0x01 → s.seeded256 = true → clockEdge p s = { s with phase := .jumping256 false .short 0 zero256 }) ∧
    (p.cmd.word = 0x02 → s.seeded256 = true → clockEdge p s = { s with phase := .jumping256 false .long 0 zero256 }) ∧
    (p.cmd.word = 0x81 → s.seeded128 = true → clockEdge p s = { s with phase := .jumping128 false .short 0 zero128 }) ∧
    (p.cmd.word = 0x82 → s.seeded128 = true → clockEdge p s = { s with phase := .jumping128 false .long 0 zero128 })) ∧
  (∀ (p : PortIn) (s : State), p.rst = false →
    (∀ w, s.phase = .loading256 w → clockEdge p s = { s with s256 := w, phase := .jumping256 true .short 0 zero256 }) ∧
    (∀ w, s.phase = .loading128 w → clockEdge p s = { s with s128 := w, phase := .jumping128 true .short 0 zero128 })) ∧
  (∀ (s : State) (load : Bool) (tab : JumpKind) (ps : List PortIn), s.phase = .jumping256 load tab 0 zero256 →
    (∀ p ∈ ps, p.rst = false) →
    (∀ m : Fin 256, ps.length = m.val → runEdges ps s = { s with
      s256 := advance256^[m.val] s.s256
      phase := .jumping256 load tab m (xorOfSteps xor256 zero256 advance256 (table256 tab) s.s256 m.val) } ∧
      busy (runEdges ps s) = true) ∧
    (ps.length = 256 → runEdges ps s = { s with
      s256 := jump256 s.s256 (table256 tab), seeded256 := s.seeded256 || load, phase := .responding .done })) ∧
  (∀ (s : State) (load : Bool) (tab : JumpKind) (ps : List PortIn), s.phase = .jumping128 load tab 0 zero128 →
    (∀ p ∈ ps, p.rst = false) →
    (∀ m : Fin 128, ps.length = m.val → runEdges ps s = { s with
      s128 := advance128^[m.val] s.s128
      phase := .jumping128 load tab m (xorOfSteps xor128 zero128 advance128 (table128 tab) s.s128 m.val) } ∧
      busy (runEdges ps s) = true) ∧
    (ps.length = 128 → runEdges ps s = { s with
      s128 := jump128 s.s128 (table128 tab), seeded128 := s.seeded128 || load, phase := .responding .done }))

/-- R11, R53, R280: the clock edges refine the transaction. From a block that is offered a command, with an environment
that answers draws and takes responses, the edges of R280's count bring the response on offer and not before, the block
is busy throughout, and the edge that takes the response leaves exactly the state that the step of the command leaves. -/
def Obligations.ClockEdgesRefineTheTransaction : Prop :=
  ∀ (s t : State) (c : Command) (rest : List HostInput) (n : Nat),
    s.phase = .idle → s.hostIn = .command c :: rest → step s = .next t →
    (∀ i, decode c = .ok i → n = responseCycles i s) → (∀ e, decode c = .error e → n = 1) →
    systemEdge^[n + 1] s = t ∧
    (∀ m, 1 ≤ m → m ≤ n → busy (systemEdge^[m] s) = true) ∧
    (∀ m, 1 ≤ m → m < n → offered (systemEdge^[m] s) = none) ∧
    offered (systemEdge^[n] s) = t.taken.head?

/-- R57, R272: nothing of a command shows before it responds. From a block that is offered a command, on every edge before
the one that brings the response, no response is on offer, the host has taken none, and the seeded bits and the error
record are what they were when the command was accepted. -/
def Obligations.NoPartOfACommandShows : Prop :=
  ∀ (s : State) (c : Command) (rest : List HostInput) (n m : Nat),
    s.phase = .idle → s.hostIn = .command c :: rest →
    (∀ i, decode c = .ok i → n = responseCycles i s) → (∀ e, decode c = .error e → n = 1) → 1 ≤ m → m < n →
    offered (systemEdge^[m] s) = none ∧ (systemEdge^[m] s).taken = s.taken ∧
    (systemEdge^[m] s).seeded256 = s.seeded256 ∧ (systemEdge^[m] s).seeded128 = s.seeded128 ∧
    (systemEdge^[m] s).err = s.err ∧ (systemEdge^[m] s).ecode = s.ecode ∧ (systemEdge^[m] s).ecmd = s.ecmd

/-- The model's choice (log entry 19), no rule of the spec: R53 calls a response taken on an edge where `rsp_valid = 1` and
`rsp_ready = 1`, R261 has a reset discard one not yet taken, and neither names an edge that has both. On it the model lets
the reset win: the response is withdrawn and the host has not taken it. -/
def Obligations.ResetWinsOverTakingAResponse : Prop :=
  ∀ (p : PortIn) (s : State) (r : Response), p.rst = true → p.rspReady = true → s.phase = .responding r →
    (clockEdge p s).taken = s.taken ∧ offered (clockEdge p s) = none ∧ (status (clockEdge p s)).getLsbD 0 = false
end

