-- ==== Sys2Proof/Laws/Datapath.lean ====
section
/-! SUPPORT. Small lemmas of the datapath functions. -/

namespace Sys2Proof.Machine

theorem rotl_eq (x : Word) (k : Nat) (h : 0 < k ∧ k < 64) : rotl x k h = (x <<< k) ||| (x >>> (64 - k)) := rfl

/-- A rotation is linear over XOR. -/
theorem rotl_xor (x y : Word) (k : Nat) (h : 0 < k ∧ k < 64) : rotl (x ^^^ y) k h = rotl x k h ^^^ rotl y k h := by
  apply BitVec.eq_of_getLsbD_eq
  intro i hi
  simp only [rotl, BitVec.getLsbD_or, BitVec.getLsbD_xor, BitVec.getLsbD_shiftLeft, BitVec.getLsbD_ushiftRight]
  by_cases hk : i < k
  · simp [hk]
  · simp [hk, BitVec.getLsbD_of_ge x (64 - k + i) (by omega), BitVec.getLsbD_of_ge y (64 - k + i) (by omega), hi]

theorem scr_eq (x : Word) : scr x = rotl (x * 5) 7 * 9 := rfl

@[simp] theorem step256_output (s : Words256) : (step256 s).1 = scr s.s1 := rfl
@[simp] theorem step256_next (s : Words256) : (step256 s).2 = advance256 s := rfl
@[simp] theorem step128_output (s : Words128) : (step128 s).1 = scr s.s0 := rfl
@[simp] theorem step128_next (s : Words128) : (step128 s).2 = advance128 s := rfl

section Xor
variable (a b c : Words256) (x y z : Words128)

theorem xor256_assoc : xor256 (xor256 a b) c = xor256 a (xor256 b c) := by simp [xor256, BitVec.xor_assoc]
theorem xor256_comm : xor256 a b = xor256 b a := by simp [xor256, BitVec.xor_comm]
@[simp] theorem xor256_zero : xor256 a zero256 = a := by cases a; simp [xor256, zero256]
@[simp] theorem zero_xor256 : xor256 zero256 a = a := by cases a; simp [xor256, zero256]
@[simp] theorem xor256_self : xor256 a a = zero256 := by simp [xor256, zero256]
theorem xor128_assoc : xor128 (xor128 x y) z = xor128 x (xor128 y z) := by simp [xor128, BitVec.xor_assoc]
theorem xor128_comm : xor128 x y = xor128 y x := by simp [xor128, BitVec.xor_comm]
@[simp] theorem xor128_zero : xor128 x zero128 = x := by cases x; simp [xor128, zero128]
@[simp] theorem zero_xor128 : xor128 zero128 x = x := by cases x; simp [xor128, zero128]
@[simp] theorem xor128_self : xor128 x x = zero128 := by simp [xor128, zero128]

end Xor

theorem word_xor_swap (a b c d : Word) : (a ^^^ b) ^^^ (c ^^^ d) = (a ^^^ c) ^^^ (b ^^^ d) := by ac_rfl

/-- The state update of the G256 step is linear over XOR (R113). -/
theorem advance256_xor (a b : Words256) : advance256 (xor256 a b) = xor256 (advance256 a) (advance256 b) := by
  simp only [advance256, step256, xor256, Words256.mk.injEq, BitVec.shiftLeft_xor_distrib]
  refine ⟨?_, ?_, ?_, ?_⟩
  · ac_rfl
  · ac_rfl
  · generalize a.s1 <<< 17 = x; generalize b.s1 <<< 17 = y; ac_rfl
  · rw [word_xor_swap, rotl_xor]

/-- The state update of the G128 step is linear over XOR (R113). -/
theorem advance128_xor (a b : Words128) : advance128 (xor128 a b) = xor128 (advance128 a) (advance128 b) := by
  simp only [advance128, step128, xor128, Words128.mk.injEq]
  rw [word_xor_swap a.s1 b.s1 a.s0 b.s0]
  simp only [rotl_xor, BitVec.shiftLeft_xor_distrib]
  refine ⟨?_, trivial⟩
  rw [word_xor_swap (rotl a.s0 24), word_xor_swap]

section Jump
variable {W : Type} (xor : W → W → W) (advance : W → W)

@[simp] theorem jumpIteration_fst (bit : Bool) (p : W × W) :
    (jumpIteration xor advance bit p).1 = if bit then xor p.1 p.2 else p.1 := rfl
/-- Every iteration advances the state, whatever the bit (R110: "always executed"). -/
@[simp] theorem jumpIteration_snd (bit : Bool) (p : W × W) : (jumpIteration xor advance bit p).2 = advance p.2 := rfl

theorem foldl_jumpIteration_snd (bits : List Nat) (t : Word) (p : W × W) :
    (bits.foldl (fun q b => jumpIteration xor advance (t.getLsbD b) q) p).2 = advance^[bits.length] p.2 := by
  induction bits generalizing p with
  | nil => rfl
  | cons b rest ih => simp [ih]

/-- A table word takes 64 steps. -/
theorem jumpWord_snd (p : W × W) (t : Word) : (jumpWord xor advance p t).2 = advance^[64] p.2 := by
  simp [jumpWord, foldl_jumpIteration_snd]

end Jump

end Sys2Proof.Machine
end

