-- ==== Sys2Proof/Laws/Polynomial.lean ====
section
/-! SUPPORT. A jump table read as a polynomial in the step over GF(2) (40_datapath.md R112, R113; 95_test_vectors.md Part
3): the value of a polynomial at the step, products modulo a polynomial that the step annihilates, and that the
characteristic polynomials of Part 3 are such. A polynomial is a `Nat` whose bit `n` is the coefficient of `x^n`. -/

namespace Sys2Proof.Machine

/-- XOR is a group of exponent 2 and the step is linear over it. -/
structure StepLaws {W : Type} (xor : W → W → W) (zero : W) (advance : W → W) : Prop where
  assoc : ∀ a b c, xor (xor a b) c = xor a (xor b c)
  comm : ∀ a b, xor a b = xor b a
  xor_zero : ∀ a, xor a zero = a
  self : ∀ a, xor a a = zero
  advance_xor : ∀ a b, advance (xor a b) = xor (advance a) (advance b)

/-- The polynomial of the low `n` bits of `q`, at the step, applied to `s`. -/
def polyEval {W : Type} (xor : W → W → W) (zero : W) (advance : W → W) : Nat → Nat → W → W
  | 0, _, _ => zero
  | n + 1, q, s => xor (if q.testBit 0 then s else zero) (polyEval xor zero advance n (q >>> 1) (advance s))

/-- `x * q` modulo `p` of degree `N`, in operations the kernel computes with. -/
def double (N p q : Nat) : Nat := Nat.xor (Nat.add q q) (Nat.mul (Nat.shiftRight (Nat.add q q) N) p)

/-- `x^k * acc + (the low k bits of r) * q` modulo `p`. The test forces the kernel to evaluate `acc`. -/
def mulMod (N p q r : Nat) : Nat → Nat → Nat
  | 0, acc => acc
  | k + 1, acc => cond (Nat.ble 0 acc)
      (mulMod N p q r k (Nat.xor (double N p acc) (Nat.mul (Nat.land 1 (Nat.shiftRight r k)) q))) 0

/-- `q` squared `k` times modulo `p`. -/
def squares (N p : Nat) : Nat → Nat → Nat
  | 0, q => q
  | k + 1, q => cond (Nat.ble 0 q) (squares N p k (mulMod N p q q N 0)) 0

/-- A jump table as a polynomial: bit `64 w + b` is bit `b` of word `w` (R112). -/
def tablePoly (table : List Word) : Nat := table.foldr (fun w n => n * 2 ^ 64 + w.toNat) 0

theorem cond_ble_zero {α : Type} (n : Nat) (a b : α) : cond (Nat.ble 0 n) a b = a := by
  rw [Nat.ble_eq_true_of_le (Nat.zero_le n), cond_true]

theorem double_eq {N p q : Nat} (hq : q < 2 ^ N) :
    double N p q = if (q <<< 1).testBit N then (q <<< 1) ^^^ p else q <<< 1 := by
  have h2 : q <<< 1 = q + q := by rw [Nat.shiftLeft_eq]; omega
  have hlt : (q + q) >>> N < 2 := by 
    rw [Nat.shiftRight_eq_div_pow]; exact Nat.div_lt_of_lt_mul (show q + q < 2 ^ N * 2 by omega)
  have ht : (q + q).testBit N = decide ((q + q) >>> N = 1) := by
    rw [Nat.testBit_eq_decide_div_mod_eq, ← Nat.shiftRight_eq_div_pow, Nat.mod_eq_of_lt hlt]
  rw [h2, ht]
  change (q + q) ^^^ (((q + q) >>> N) * p) = _
  rcases Nat.lt_succ_iff_lt_or_eq.mp hlt with h0 | h1
  · simp [Nat.lt_one_iff.mp h0]
  · simp [h1]

theorem mulMod_succ (N p q r k acc : Nat) : mulMod N p q r (k + 1) acc =
    mulMod N p q r k (double N p acc ^^^ if r.testBit k then q else 0) := by
  rw [mulMod, cond_ble_zero]
  change mulMod N p q r k (double N p acc ^^^ ((1 &&& (r >>> k)) * q)) = _
  congr 2
  rw [Nat.one_and_eq_mod_two, Nat.testBit_eq_decide_div_mod_eq, ← Nat.shiftRight_eq_div_pow]
  rcases Nat.mod_two_eq_zero_or_one (r >>> k) with h | h <;> simp [h]

theorem squares_succ (N p k q : Nat) : squares N p (k + 1) q = squares N p k (mulMod N p q q N 0) := by
  rw [squares, cond_ble_zero]

theorem double_lt {N p q : Nat} (hp : p < 2 ^ (N + 1)) (ht : p.testBit N = true) (hq : q < 2 ^ N) :
    double N p q < 2 ^ N := by
  rw [double_eq hq]
  apply Nat.lt_pow_two_of_testBit
  intro i hi
  have hq' : (q <<< 1) < 2 ^ (N + 1) := by rw [Nat.shiftLeft_eq]; omega
  have big : ∀ x, x < 2 ^ (N + 1) → N < i → x.testBit i = false := fun x hx hi =>
    Nat.testBit_lt_two_pow (lt_of_lt_of_le hx (Nat.pow_le_pow_right (by omega) hi))
  rcases Nat.eq_or_lt_of_le hi with rfl | hlt
  · split <;> rename_i hh
    · rw [Nat.testBit_xor, hh, ht]; rfl
    · simpa using hh
  · split
    · rw [Nat.testBit_xor, big _ hq' hlt, big _ hp hlt]; rfl
    · exact big _ hq' hlt

theorem ite_lt_two_pow {N q : Nat} (hq : q < 2 ^ N) (b : Bool) : (if b then q else 0) < 2 ^ N := by
  split
  · exact hq
  · exact Nat.two_pow_pos N

theorem mulMod_lt {N p q r : Nat} (hp : p < 2 ^ (N + 1)) (ht : p.testBit N = true) (hq : q < 2 ^ N) (k acc : Nat)
    (ha : acc < 2 ^ N) : mulMod N p q r k acc < 2 ^ N := by
  induction k generalizing acc with
  | zero => exact ha
  | succ k ih => rw [mulMod_succ]; exact ih _ (Nat.xor_lt_two_pow (double_lt hp ht ha) (ite_lt_two_pow hq _))

section Eval
variable {W : Type} {xor : W → W → W} {zero : W} {advance : W → W} (h : StepLaws xor zero advance)
include h

theorem StepLaws_zero_xor (a : W) : xor zero a = a := by rw [h.comm, h.xor_zero]

theorem StepLaws_advance_zero : advance zero = zero := by
  have := h.advance_xor zero zero
  rwa [h.self, h.self] at this

theorem StepLaws_swap (a b c d : W) : xor (xor a b) (xor c d) = xor (xor a c) (xor b d) := by
  rw [h.assoc, h.assoc, ← h.assoc b c d, h.comm b c, h.assoc c b d]

theorem StepLaws_iterate_xor (k : Nat) (a b : W) : advance^[k] (xor a b) = xor (advance^[k] a) (advance^[k] b) := by
  induction k generalizing a b with
  | zero => rfl
  | succ k ih => simp only [Function.iterate_succ_apply, h.advance_xor, ih]

theorem StepLaws_iterate_zero (k : Nat) : advance^[k] zero = zero := by
  induction k with
  | zero => rfl
  | succ k ih => rw [Function.iterate_succ_apply, StepLaws_advance_zero h, ih]

theorem polyEval_xor (n q r : Nat) (s : W) : polyEval xor zero advance n (q ^^^ r) s =
    xor (polyEval xor zero advance n q s) (polyEval xor zero advance n r s) := by
  induction n generalizing q r s with
  | zero => simp [polyEval, h.self]
  | succ n ih =>
    simp only [polyEval, Nat.shiftRight_xor_distrib, ih, Nat.testBit_xor]
    rw [StepLaws_swap h]
    congr 1
    cases q.testBit 0 <;> cases r.testBit 0 <;> simp [h.self, h.xor_zero, StepLaws_zero_xor h]

/-- The value of a polynomial at the step is linear. -/
theorem polyEval_state_xor (n q : Nat) (s t : W) : polyEval xor zero advance n q (xor s t) =
    xor (polyEval xor zero advance n q s) (polyEval xor zero advance n q t) := by
  induction n generalizing q s t with
  | zero => simp [polyEval, h.self]
  | succ n ih =>
    simp only [polyEval, h.advance_xor, ih]
    rw [StepLaws_swap h]
    congr 1
    cases q.testBit 0 <;> simp [h.self]

theorem polyEval_advance (n q : Nat) (s : W) :
    polyEval xor zero advance n q (advance s) = advance (polyEval xor zero advance n q s) := by
  induction n generalizing q s with
  | zero => simp [polyEval, StepLaws_advance_zero h]
  | succ n ih =>
    simp only [polyEval, h.advance_xor, ih]
    cases q.testBit 0 <;> simp [StepLaws_advance_zero h]

theorem polyEval_zero (n : Nat) (s : W) : polyEval xor zero advance n 0 s = zero := by
  induction n generalizing s with
  | zero => rfl
  | succ n ih => simp [polyEval, ih, h.self]

theorem polyEval_grow (n q : Nat) (s : W) (hq : q < 2 ^ n) :
    polyEval xor zero advance (n + 1) q s = polyEval xor zero advance n q s := by
  induction n generalizing q s with
  | zero =>
    obtain rfl : q = 0 := by simpa using hq
    simp [polyEval, h.self]
  | succ n ih => rw [polyEval, ih _ _ (by rw [Nat.shiftRight_eq_div_pow]; omega)]; rfl

theorem polyEval_shift (n q : Nat) (s : W) :
    polyEval xor zero advance (n + 1) (q <<< 1) s = polyEval xor zero advance n q (advance s) := by
  have h1 : (q <<< 1).testBit 0 = false := by simp
  have h2 : (q <<< 1) >>> 1 = q := by simp [Nat.shiftLeft_shiftRight]
  rw [polyEval, h1, h2]; simp [StepLaws_zero_xor h]

theorem polyEval_snoc (n q : Nat) (s : W) : polyEval xor zero advance (n + 1) q s =
    xor (polyEval xor zero advance n q s) (if q.testBit n then advance^[n] s else zero) := by
  induction n generalizing q s with
  | zero => simp [polyEval, h.xor_zero, StepLaws_zero_xor h]
  | succ n ih =>
    rw [polyEval, ih, polyEval, h.assoc, Nat.testBit_shiftRight, Nat.add_comm 1 n, Function.iterate_succ_apply]

/-- The XOR of the states at a table's set bits is the value of the table's polynomial. -/
theorem xorOfSteps_eq_polyEval (table : List Word) (q n : Nat) (s : W)
    (bits : ∀ k < n, tableBit table k = q.testBit k) :
    xorOfSteps xor zero advance table s n = polyEval xor zero advance n q s := by
  induction n with
  | zero => rfl
  | succ n ih =>
    rw [polyEval_snoc h, ← ih (fun k hk => bits k (by omega)), ← bits n (by omega), xorOfSteps]
    cases tableBit table n <;> simp [h.xor_zero]

variable {N p : Nat} (hp : p < 2 ^ (N + 1)) (ht : p.testBit N = true)
  (hz : ∀ s, polyEval xor zero advance (N + 1) p s = zero)
include hp ht hz

theorem polyEval_double {q : Nat} (hq : q < 2 ^ N) (s : W) :
    polyEval xor zero advance N (double N p q) s = advance (polyEval xor zero advance N q s) := by
  rw [← polyEval_grow h _ _ _ (double_lt hp ht hq), double_eq hq]
  split
  · rw [polyEval_xor h, hz, h.xor_zero, polyEval_shift h, polyEval_advance h]
  · rw [polyEval_shift h, polyEval_advance h]

/-- A product modulo a polynomial that the step annihilates is the composite of the values. -/
theorem polyEval_mulMod {q r : Nat} (hq : q < 2 ^ N) (k acc : Nat) (ha : acc < 2 ^ N) (s : W) :
    polyEval xor zero advance N (mulMod N p q r k acc) s = xor (advance^[k] (polyEval xor zero advance N acc s))
      (polyEval xor zero advance k r (polyEval xor zero advance N q s)) := by
  induction k generalizing acc with
  | zero => simp [mulMod, polyEval, h.xor_zero]
  | succ k ih =>
    rw [mulMod_succ, ih _ (Nat.xor_lt_two_pow (double_lt hp ht ha) (ite_lt_two_pow hq _)), polyEval_xor h,
      polyEval_double h hp ht hz ha, StepLaws_iterate_xor h, ← Function.iterate_succ_apply, h.assoc, polyEval_snoc h]
    congr 1
    rw [h.comm]
    congr 1
    split
    · rfl
    · rw [polyEval_zero h, StepLaws_iterate_zero h]

/-- Squaring a polynomial whose value is a power of the step doubles the power. -/
theorem polyEval_squares {q m : Nat} (hq : q < 2 ^ N) (hm : ∀ s, polyEval xor zero advance N q s = advance^[m] s)
    (k : Nat) (s : W) : polyEval xor zero advance N (squares N p k q) s = advance^[m * 2 ^ k] s := by
  induction k generalizing q m with
  | zero => simpa [squares] using hm s
  | succ k ih =>
    rw [squares_succ, ih (m := m + m) (mulMod_lt hp ht hq _ _ (Nat.two_pow_pos N))]
    · congr 1; ring
    · intro t
      rw [polyEval_mulMod h hp ht hz hq _ _ (Nat.two_pow_pos N), polyEval_zero h, StepLaws_iterate_zero h,
        StepLaws_zero_xor h, hm, hm, ← Function.iterate_add_apply]

end Eval

end Sys2Proof.Machine
end

