-- ==== Sys2Proof/Laws/CharacteristicPolynomial.lean ====
section
/-! SUPPORT. Each engine's step annihilates the characteristic polynomial that 95_test_vectors.md Part 3 gives for it. It is
enough that it does on a basis; the kernel computes that on all the basis states at once, packed into lanes of 64 bits. -/

namespace Sys2Proof.Machine

/-- `p256` of 95_test_vectors.md Part 3. -/
def charPoly256 : Nat := 0x10003c03c3f3ecb1904b4edcf26259f850280002bcefd1a5e9d116f2bb0f0f001

/-- `p128` of 95_test_vectors.md Part 3. -/
def charPoly128 : Nat := 0x10008828e513b43d5095b8f76579aa001

/-! ## Lanes: a `Nat` as 256 words -/

/-- `n` copies of the 64-bit pattern `m`. -/
def copies (m : Nat) : Nat → Nat
  | 0 => 0
  | n + 1 => Nat.add (Nat.mul (copies m n) 0x10000000000000000) m

/-- Word `i` of a packed number. -/
def lane (i : Nat) (P : Nat) : Word := BitVec.ofNat 64 (P >>> (64 * i))

/-- `<< k` in each of 256 lanes. -/
def laneShl (k P : Nat) : Nat := Nat.land (Nat.mul P (Nat.pow 2 k)) (copies (Nat.mul (2 ^ k) (2 ^ (64 - k) - 1)) 256)

/-- `>> k` in each of 256 lanes. -/
def laneShr (k P : Nat) : Nat := Nat.land (Nat.shiftRight P k) (copies (2 ^ (64 - k) - 1) 256)

/-- `ROTL64(., k)` in each of 256 lanes. -/
def laneRotl (k P : Nat) : Nat := Nat.lor (laneShl k P) (laneShr (64 - k) P)

theorem testBit_copies (m : Nat) (hm : m < 2 ^ 64) (n j : Nat) :
    (copies m n).testBit j = (decide (j < 64 * n) && m.testBit (j % 64)) := by
  induction n generalizing j with
  | zero => simp [copies]
  | succ n ih =>
    have e : copies m (n + 1) = 2 ^ 64 * copies m n + m := by
      change copies m n * 2 ^ 64 + m = _
      rw [Nat.mul_comm]
    rw [e, Nat.testBit_two_pow_mul_add _ hm]
    split <;> rename_i hj
    · rw [Nat.mod_eq_of_lt hj]; simp; intro; omega
    · rw [ih, show (j - 64) % 64 = j % 64 by omega]
      congr 1
      simp; omega

theorem lane_getLsbD (i P j : Nat) : (lane i P).getLsbD j = (decide (j < 64) && P.testBit (64 * i + j)) := by
  simp [lane, BitVec.getLsbD_ofNat, Nat.testBit_shiftRight]

theorem lane_xor (i P Q : Nat) : lane i (P ^^^ Q) = lane i P ^^^ lane i Q := by
  apply BitVec.eq_of_getLsbD_eq; intro j hj
  simp only [BitVec.getLsbD_xor, lane_getLsbD, hj, Nat.testBit_xor, decide_true, Bool.true_and]

theorem lane_or (i P Q : Nat) : lane i (P ||| Q) = lane i P ||| lane i Q := by
  apply BitVec.eq_of_getLsbD_eq; intro j hj
  simp only [BitVec.getLsbD_or, lane_getLsbD, hj, Nat.testBit_or, decide_true, Bool.true_and]

theorem lane_shl (i k P : Nat) (hi : i < 256) (hk : k < 64) : lane i (laneShl k P) = lane i P <<< k := by
  apply BitVec.eq_of_getLsbD_eq; intro j hj
  have hm : (2 ^ k * (2 ^ (64 - k) - 1)).testBit j = decide (k ≤ j) := by
    rw [Nat.testBit_two_pow_mul, Nat.testBit_two_pow_sub_one]
    by_cases h : k ≤ j <;> simp [h]; omega
  have hlt : 2 ^ k * (2 ^ (64 - k) - 1) < 2 ^ 64 := by
    rw [show 2 ^ 64 = 2 ^ k * 2 ^ (64 - k) by rw [← pow_add]; congr 1; omega]
    exact Nat.mul_lt_mul_of_pos_left (by have := Nat.two_pow_pos (64 - k); omega) (Nat.two_pow_pos k)
  change (lane i ((P * 2 ^ k) &&& copies (2 ^ k * (2 ^ (64 - k) - 1)) 256)).getLsbD j = _
  rw [BitVec.getLsbD_shiftLeft, lane_getLsbD, lane_getLsbD, Nat.testBit_and, testBit_copies _ hlt,
    show (64 * i + j) % 64 = j by omega, hm, ← Nat.shiftLeft_eq, Nat.testBit_shiftLeft]
  simp only [show 64 * i + j < 64 * 256 by omega, hj, decide_true, Bool.true_and]
  by_cases hkj : k ≤ j
  · simp [hkj, show 64 * i + j ≥ k by omega, show 64 * i + (j - k) = 64 * i + j - k by omega, show ¬j < k by omega,
      show j - k < 64 by omega]
  · simp [hkj, show j < k by omega]

theorem lane_shr (i k P : Nat) (hi : i < 256) : lane i (laneShr k P) = lane i P >>> k := by
  apply BitVec.eq_of_getLsbD_eq; intro j hj
  have hlt : 2 ^ (64 - k) - 1 < 2 ^ 64 := by
    have := Nat.pow_le_pow_right (show 0 < 2 by omega) (show 64 - k ≤ 64 by omega)
    have := Nat.two_pow_pos (64 - k)
    omega
  change (lane i ((P >>> k) &&& copies (2 ^ (64 - k) - 1) 256)).getLsbD j = _
  rw [BitVec.getLsbD_ushiftRight, lane_getLsbD, lane_getLsbD, Nat.testBit_and, testBit_copies _ hlt,
    show (64 * i + j) % 64 = j by omega, Nat.testBit_two_pow_sub_one, Nat.testBit_shiftRight]
  simp only [show 64 * i + j < 64 * 256 by omega, hj, decide_true, Bool.true_and]
  rw [show k + (64 * i + j) = 64 * i + (k + j) by omega, Bool.and_comm]
  congr 1
  simp; omega

theorem lane_rotl (i k P : Nat) (hi : i < 256) (h : 0 < k ∧ k < 64) : lane i (laneRotl k P) = rotl (lane i P) k h := by
  change lane i (laneShl k P ||| laneShr (64 - k) P) = _
  rw [lane_or, lane_shl _ _ _ hi h.2, lane_shr _ _ _ hi]; rfl

/-- A linear function of a word vanishes if it does on every word with one bit set. -/
theorem vanishes_of_bits {W : Type} {zero : W} (g : Word → W) (z : g 0 = zero)
    (add : ∀ x y, g x = zero → g y = zero → g (x ^^^ y) = zero) (bits : ∀ j < 64, g (BitVec.twoPow 64 j) = zero)
    (x : Word) : g x = zero := by
  have key : ∀ n ≤ 64, ∀ x : Word, x.toNat < 2 ^ n → g x = zero := by
    intro n
    induction n with
    | zero =>
      intro _ x hx
      obtain rfl : x = 0 := by apply BitVec.eq_of_toNat_eq; simpa using hx
      exact z
    | succ n ih =>
      intro hn x hx
      rcases Nat.lt_or_ge x.toNat (2 ^ n) with hlt | hge
      · exact ih (by omega) x hlt
      · rw [show x = (x ^^^ BitVec.twoPow 64 n) ^^^ BitVec.twoPow 64 n by
          rw [BitVec.xor_assoc, BitVec.xor_self, BitVec.xor_zero]]
        refine add _ _ (ih (by omega) _ ?_) (bits n (by omega))
        rw [BitVec.toNat_xor, BitVec.toNat_twoPow_of_lt (by omega)]
        apply Nat.lt_pow_two_of_testBit
        intro i hi
        rw [Nat.testBit_xor, Nat.testBit_two_pow]
        rcases Nat.eq_or_lt_of_le hi with rfl | hlt
        · have : x.toNat / 2 ^ n = 1 := by apply Nat.div_eq_of_lt_le <;> omega
          simp [Nat.testBit_eq_decide_div_mod_eq, this]
        · rw [Nat.testBit_lt_two_pow (lt_of_lt_of_le hx (Nat.pow_le_pow_right (by omega) hlt))]
          simp; omega
  exact key 64 (by omega) x x.isLt

/-- The words with one bit set, in 64 lanes. -/
def unitLanes : Nat → Nat
  | 0 => 0
  | n + 1 => Nat.add (unitLanes n) (Nat.pow 2 (Nat.mul 65 n))

/-! ## G256 -/

theorem stepLaws256 : StepLaws xor256 zero256 advance256 where
  assoc := xor256_assoc
  comm := xor256_comm
  xor_zero := xor256_zero
  self := xor256_self
  advance_xor := advance256_xor

/-- 256 states of G256. -/
structure Packed256 where
  p0 : Nat
  p1 : Nat
  p2 : Nat
  p3 : Nat
deriving DecidableEq

def packedState256 (i : Nat) (P : Packed256) : Words256 := ⟨lane i P.p0, lane i P.p1, lane i P.p2, lane i P.p3⟩

def packedXor256 (P Q : Packed256) : Packed256 :=
  ⟨Nat.xor P.p0 Q.p0, Nat.xor P.p1 Q.p1, Nat.xor P.p2 Q.p2, Nat.xor P.p3 Q.p3⟩

def packedAdvance256 (P : Packed256) : Packed256 :=
  ⟨Nat.xor P.p0 (Nat.xor P.p3 P.p1), Nat.xor P.p1 (Nat.xor P.p2 P.p0), Nat.xor (Nat.xor P.p2 P.p0) (laneShl 17 P.p1),
    laneRotl 45 (Nat.xor P.p3 P.p1)⟩

/-- True of every `P`: it makes the kernel evaluate `P`. -/
def packedForced256 (P : Packed256) : Bool :=
  and (Nat.ble 0 P.p0) (and (Nat.ble 0 P.p1) (and (Nat.ble 0 P.p2) (Nat.ble 0 P.p3)))

/-- Whether `acc` XOR the polynomial of the low `n` bits of `q` at the step, applied to `s`, is zero in every lane. -/
def packedVanishes256 : Nat → Nat → Packed256 → Packed256 → Bool
  | 0, _, _, acc => decide (acc = ⟨0, 0, 0, 0⟩)
  | n + 1, q, s, acc => and (packedForced256 s) (and (packedForced256 acc)
      (packedVanishes256 n (q >>> 1) (packedAdvance256 s) (cond (q.testBit 0) (packedXor256 acc s) acc)))

theorem packedState256_xor (i : Nat) (P Q : Packed256) :
    packedState256 i (packedXor256 P Q) = xor256 (packedState256 i P) (packedState256 i Q) := by
  simp [packedState256, packedXor256, xor256, lane_xor]

theorem packedState256_advance (i : Nat) (hi : i < 256) (P : Packed256) :
    packedState256 i (packedAdvance256 P) = advance256 (packedState256 i P) := by
  simp [packedState256, packedAdvance256, advance256, step256, lane_xor, lane_shl, lane_rotl, hi]

theorem packedVanishes256_lane {n q : Nat} {s acc : Packed256} (h : packedVanishes256 n q s acc = true) (i : Nat)
    (hi : i < 256) : xor256 (packedState256 i acc)
      (polyEval xor256 zero256 advance256 n q (packedState256 i s)) = zero256 := by
  induction n generalizing q s acc with
  | zero =>
    simp only [packedVanishes256, decide_eq_true_eq] at h
    subst h
    simp [polyEval, packedState256, lane, zero256, xor256]
  | succ n ih =>
    simp only [packedVanishes256, Bool.and_eq_true] at h
    have := ih h.2.2
    have e : packedState256 i (cond (q.testBit 0) (packedXor256 acc s) acc) =
        xor256 (packedState256 i acc) (if q.testBit 0 then packedState256 i s else zero256) := by
      cases q.testBit 0 <;> simp [packedState256_xor]
    rw [packedState256_advance i hi, e] at this
    rw [polyEval, ← xor256_assoc]
    exact this

/-- The states of G256 with one bit set: lane `64 w + j` has bit `j` of word `w`. -/
def basis256 : Packed256 := ⟨unitLanes 64, Nat.mul (unitLanes 64) (Nat.pow 2 4096),
  Nat.mul (unitLanes 64) (Nat.pow 2 8192), Nat.mul (unitLanes 64) (Nat.pow 2 12288)⟩

theorem basis256_lanes : ∀ j : Fin 64, packedState256 j.val basis256 = ⟨BitVec.twoPow 64 j, 0, 0, 0⟩ ∧
    packedState256 (64 + j.val) basis256 = ⟨0, BitVec.twoPow 64 j, 0, 0⟩ ∧
    packedState256 (128 + j.val) basis256 = ⟨0, 0, BitVec.twoPow 64 j, 0⟩ ∧
    packedState256 (192 + j.val) basis256 = ⟨0, 0, 0, BitVec.twoPow 64 j⟩ := by decide +kernel

theorem basis256_vanishes : packedVanishes256 257 charPoly256 basis256 ⟨0, 0, 0, 0⟩ = true := by decide +kernel

/-- A linear function of a G256 state vanishes if it does on the states with one bit set. -/
theorem vanishes256_of_basis (f : Words256 → Words256) (add : ∀ a b, f (xor256 a b) = xor256 (f a) (f b))
    (lanes : ∀ i < 256, f (packedState256 i basis256) = zero256) (s : Words256) : f s = zero256 := by
  have add : ∀ a b, f a = zero256 → f b = zero256 → f (xor256 a b) = zero256 := by
    intro a b ha hb
    rw [add, ha, hb, xor256_self]
  have z : f zero256 = zero256 := by
    have := add _ _ (lanes 0 (by omega)) (lanes 0 (by omega))
    rwa [xor256_self] at this
  obtain ⟨a, b, c, d⟩ := s
  have ha := vanishes_of_bits (fun x => f ⟨x, 0, 0, 0⟩) z
    (fun x y hx hy => by simpa [xor256] using add _ _ hx hy)
    (fun j hj => by rw [← (basis256_lanes ⟨j, hj⟩).1]; exact lanes _ (by simp; omega)) a
  have hb := vanishes_of_bits (fun x => f ⟨0, x, 0, 0⟩) z
    (fun x y hx hy => by simpa [xor256] using add _ _ hx hy)
    (fun j hj => by rw [← (basis256_lanes ⟨j, hj⟩).2.1]; exact lanes _ (by simp; omega)) b
  have hc := vanishes_of_bits (fun x => f ⟨0, 0, x, 0⟩) z
    (fun x y hx hy => by simpa [xor256] using add _ _ hx hy)
    (fun j hj => by rw [← (basis256_lanes ⟨j, hj⟩).2.2.1]; exact lanes _ (by simp; omega)) c
  have hd := vanishes_of_bits (fun x => f ⟨0, 0, 0, x⟩) z
    (fun x y hx hy => by simpa [xor256] using add _ _ hx hy)
    (fun j hj => by rw [← (basis256_lanes ⟨j, hj⟩).2.2.2]; exact lanes _ (by simp; omega)) d
  simpa [xor256] using add _ _ (add _ _ ha hb) (add _ _ hc hd)

/-- The step of G256 annihilates its characteristic polynomial. -/
theorem charPoly256_step (s : Words256) : polyEval xor256 zero256 advance256 257 charPoly256 s = zero256 := by
  refine vanishes256_of_basis (polyEval xor256 zero256 advance256 257 charPoly256) (polyEval_state_xor stepLaws256 _ _)
    (fun i hi => ?_) s
  have := packedVanishes256_lane basis256_vanishes i hi
  rwa [show packedState256 i ⟨0, 0, 0, 0⟩ = zero256 by simp [packedState256, lane, zero256], zero_xor256] at this

/-! ## G128 -/

theorem stepLaws128 : StepLaws xor128 zero128 advance128 where
  assoc := xor128_assoc
  comm := xor128_comm
  xor_zero := xor128_zero
  self := xor128_self
  advance_xor := advance128_xor

/-- 128 states of G128, in 128 of the 256 lanes. -/
structure Packed128 where
  p0 : Nat
  p1 : Nat
deriving DecidableEq

def packedState128 (i : Nat) (P : Packed128) : Words128 := ⟨lane i P.p0, lane i P.p1⟩

def packedXor128 (P Q : Packed128) : Packed128 := ⟨Nat.xor P.p0 Q.p0, Nat.xor P.p1 Q.p1⟩

def packedAdvance128 (P : Packed128) : Packed128 :=
  ⟨Nat.xor (Nat.xor (laneRotl 24 P.p0) (Nat.xor P.p1 P.p0)) (laneShl 16 (Nat.xor P.p1 P.p0)),
    laneRotl 37 (Nat.xor P.p1 P.p0)⟩

/-- True of every `P`: it makes the kernel evaluate `P`. -/
def packedForced128 (P : Packed128) : Bool := and (Nat.ble 0 P.p0) (Nat.ble 0 P.p1)

/-- Whether `acc` XOR the polynomial of the low `n` bits of `q` at the step, applied to `s`, is zero in every lane. -/
def packedVanishes128 : Nat → Nat → Packed128 → Packed128 → Bool
  | 0, _, _, acc => decide (acc = ⟨0, 0⟩)
  | n + 1, q, s, acc => and (packedForced128 s) (and (packedForced128 acc)
      (packedVanishes128 n (q >>> 1) (packedAdvance128 s) (cond (q.testBit 0) (packedXor128 acc s) acc)))

theorem packedState128_xor (i : Nat) (P Q : Packed128) :
    packedState128 i (packedXor128 P Q) = xor128 (packedState128 i P) (packedState128 i Q) := by
  simp [packedState128, packedXor128, xor128, lane_xor]

theorem packedState128_advance (i : Nat) (hi : i < 256) (P : Packed128) :
    packedState128 i (packedAdvance128 P) = advance128 (packedState128 i P) := by
  simp [packedState128, packedAdvance128, advance128, step128, lane_xor, lane_shl, lane_rotl, hi]

theorem packedVanishes128_lane {n q : Nat} {s acc : Packed128} (h : packedVanishes128 n q s acc = true) (i : Nat)
    (hi : i < 256) : xor128 (packedState128 i acc)
      (polyEval xor128 zero128 advance128 n q (packedState128 i s)) = zero128 := by
  induction n generalizing q s acc with
  | zero =>
    simp only [packedVanishes128, decide_eq_true_eq] at h
    subst h
    simp [polyEval, packedState128, lane, zero128, xor128]
  | succ n ih =>
    simp only [packedVanishes128, Bool.and_eq_true] at h
    have := ih h.2.2
    have e : packedState128 i (cond (q.testBit 0) (packedXor128 acc s) acc) =
        xor128 (packedState128 i acc) (if q.testBit 0 then packedState128 i s else zero128) := by
      cases q.testBit 0 <;> simp [packedState128_xor]
    rw [packedState128_advance i hi, e] at this
    rw [polyEval, ← xor128_assoc]
    exact this

/-- The states of G128 with one bit set: lane `64 w + j` has bit `j` of word `w`. -/
def basis128 : Packed128 := ⟨unitLanes 64, Nat.mul (unitLanes 64) (Nat.pow 2 4096)⟩

theorem basis128_lanes : ∀ j : Fin 64, packedState128 j.val basis128 = ⟨BitVec.twoPow 64 j, 0⟩ ∧
    packedState128 (64 + j.val) basis128 = ⟨0, BitVec.twoPow 64 j⟩ := by decide +kernel

theorem basis128_vanishes : packedVanishes128 129 charPoly128 basis128 ⟨0, 0⟩ = true := by decide +kernel

/-- A linear function of a G128 state vanishes if it does on the states with one bit set. -/
theorem vanishes128_of_basis (f : Words128 → Words128) (add : ∀ a b, f (xor128 a b) = xor128 (f a) (f b))
    (lanes : ∀ i < 256, f (packedState128 i basis128) = zero128) (s : Words128) : f s = zero128 := by
  have add : ∀ a b, f a = zero128 → f b = zero128 → f (xor128 a b) = zero128 := by
    intro a b ha hb
    rw [add, ha, hb, xor128_self]
  have z : f zero128 = zero128 := by
    have := add _ _ (lanes 0 (by omega)) (lanes 0 (by omega))
    rwa [xor128_self] at this
  obtain ⟨a, b⟩ := s
  have ha := vanishes_of_bits (fun x => f ⟨x, 0⟩) z
    (fun x y hx hy => by simpa [xor128] using add _ _ hx hy)
    (fun j hj => by rw [← (basis128_lanes ⟨j, hj⟩).1]; exact lanes _ (by simp; omega)) a
  have hb := vanishes_of_bits (fun x => f ⟨0, x⟩) z
    (fun x y hx hy => by simpa [xor128] using add _ _ hx hy)
    (fun j hj => by rw [← (basis128_lanes ⟨j, hj⟩).2]; exact lanes _ (by simp; omega)) b
  simpa [xor128] using add _ _ ha hb

/-- The step of G128 annihilates its characteristic polynomial. -/
theorem charPoly128_step (s : Words128) : polyEval xor128 zero128 advance128 129 charPoly128 s = zero128 := by
  refine vanishes128_of_basis (polyEval xor128 zero128 advance128 129 charPoly128) (polyEval_state_xor stepLaws128 _ _)
    (fun i hi => ?_) s
  have := packedVanishes128_lane basis128_vanishes i hi
  rwa [show packedState128 i ⟨0, 0⟩ = zero128 by simp [packedState128, lane, zero128], zero_xor128] at this

end Sys2Proof.Machine
end

