-- ==== Sys2Proof/Laws/Decode.lean ====
section
/-! SUPPORT. Inversions of the decoder. -/

namespace Sys2Proof

/-- A command word is its three fields (30_encoding.md R70). -/
theorem word_fields (c : CmdWord) :
    c.toNat = 128 * (c.getLsbD 7).toNat + 16 * (c.extractLsb' 4 3).toNat + (c.extractLsb' 0 4).toNat := by
  revert c; decide

/-- A command that decodes has the word the encoder gives its instruction: all 8 bits are matched (R75). -/
theorem decode_word {c : Command} {i : Instr} (h : decode c = .ok i) : c.word = (encode i).word := by
  obtain ⟨c, d0, d1, d2, d3⟩ := c
  have hc := word_fields c
  unfold decode at h
  dsimp only at h ⊢
  split at h
  · cases h
  · rename_i h0
    rw [not_not.mp h0] at hc
    apply BitVec.eq_of_toNat_eq
    split at h <;> rename_i h7 <;> rw [h7] at hc <;> generalize (c.extractLsb' 0 4).toNat = n at h hc
    · unfold decodeG256 at h; split at h <;> cases h <;> exact hc
    · unfold decodeG128 at h; split at h <;> cases h <;> exact hc

/-- The engine select bit of a command that decodes (R71). -/
theorem decode_engine {c : Command} {i : Instr} (h : decode c = .ok i) :
    c.word.getLsbD 7 = decide (i.engine = .g128) := by
  rw [decode_word h]; cases i <;> simp [encode, Command.plain, Instr.engine]

/-- A command word that the decoder refuses is no legal one. -/
theorem decode_error {c : Command} {e : DecodeReject} (h : decode c = .error e) : legalWord c.word = false := by
  have undefined : ∀ (n : Nat) (c : Command) (e : DecodeReject),
      decodeG256 n c = .error e ∨ decodeG128 n c = .error e → ¬n < 10 := by
    intro n c e h hn
    interval_cases n <;> rcases h with h | h <;> cases h
  unfold decode at h
  split at h
  · rename_i h0; simp [legalWord, rsvIsZero, h0]
  · simp only [legalWord, opIsDefined, Bool.and_eq_false_iff, decide_eq_false_iff_not]
    right
    split at h
    · exact undefined _ _ _ (.inl h)
    · exact undefined _ _ _ (.inr h)

end Sys2Proof
end

