-- ==== Sys2Proof/Laws/State.lean ====
section
/-! SUPPORT. One lemma per field per update of `State`, each true by `rfl`, so that no proof unfolds a record update. -/

namespace Sys2Proof.Machine

@[simp] theorem respond_s256 (r : Response) (s : State) : (respond r s).s256 = s.s256 := rfl
@[simp] theorem respond_s128 (r : Response) (s : State) : (respond r s).s128 = s.s128 := rfl
@[simp] theorem respond_seeded256 (r : Response) (s : State) : (respond r s).seeded256 = s.seeded256 := rfl
@[simp] theorem respond_seeded128 (r : Response) (s : State) : (respond r s).seeded128 = s.seeded128 := rfl
@[simp] theorem respond_err (r : Response) (s : State) : (respond r s).err = s.err := rfl
@[simp] theorem respond_ecode (r : Response) (s : State) : (respond r s).ecode = s.ecode := rfl
@[simp] theorem respond_ecmd (r : Response) (s : State) : (respond r s).ecmd = s.ecmd := rfl
@[simp] theorem respond_phase (r : Response) (s : State) : (respond r s).phase = .responding r := rfl
@[simp] theorem respond_hostIn (r : Response) (s : State) : (respond r s).hostIn = s.hostIn := rfl
@[simp] theorem respond_taken (r : Response) (s : State) : (respond r s).taken = s.taken := rfl
@[simp] theorem respond_entIn (r : Response) (s : State) : (respond r s).entIn = s.entIn := rfl
@[simp] theorem respond_free (r : Response) (s : State) : (respond r s).free = s.free := rfl

@[simp] theorem writeWords256_s256 (w : Words256) (s : State) : (writeWords256 w s).s256 = w := rfl
@[simp] theorem writeWords256_s128 (w : Words256) (s : State) : (writeWords256 w s).s128 = s.s128 := rfl
@[simp] theorem writeWords256_seeded256 (w : Words256) (s : State) : (writeWords256 w s).seeded256 = s.seeded256 := rfl
@[simp] theorem writeWords256_seeded128 (w : Words256) (s : State) : (writeWords256 w s).seeded128 = s.seeded128 := rfl
@[simp] theorem writeWords256_err (w : Words256) (s : State) : (writeWords256 w s).err = s.err := rfl
@[simp] theorem writeWords256_ecode (w : Words256) (s : State) : (writeWords256 w s).ecode = s.ecode := rfl
@[simp] theorem writeWords256_ecmd (w : Words256) (s : State) : (writeWords256 w s).ecmd = s.ecmd := rfl
@[simp] theorem writeWords256_phase (w : Words256) (s : State) : (writeWords256 w s).phase = s.phase := rfl
@[simp] theorem writeWords256_hostIn (w : Words256) (s : State) : (writeWords256 w s).hostIn = s.hostIn := rfl
@[simp] theorem writeWords256_taken (w : Words256) (s : State) : (writeWords256 w s).taken = s.taken := rfl
@[simp] theorem writeWords256_entIn (w : Words256) (s : State) : (writeWords256 w s).entIn = s.entIn := rfl
@[simp] theorem writeWords256_free (w : Words256) (s : State) : (writeWords256 w s).free = s.free := rfl

@[simp] theorem writeWords128_s256 (w : Words128) (s : State) : (writeWords128 w s).s256 = s.s256 := rfl
@[simp] theorem writeWords128_s128 (w : Words128) (s : State) : (writeWords128 w s).s128 = w := rfl
@[simp] theorem writeWords128_seeded256 (w : Words128) (s : State) : (writeWords128 w s).seeded256 = s.seeded256 := rfl
@[simp] theorem writeWords128_seeded128 (w : Words128) (s : State) : (writeWords128 w s).seeded128 = s.seeded128 := rfl
@[simp] theorem writeWords128_err (w : Words128) (s : State) : (writeWords128 w s).err = s.err := rfl
@[simp] theorem writeWords128_ecode (w : Words128) (s : State) : (writeWords128 w s).ecode = s.ecode := rfl
@[simp] theorem writeWords128_ecmd (w : Words128) (s : State) : (writeWords128 w s).ecmd = s.ecmd := rfl
@[simp] theorem writeWords128_phase (w : Words128) (s : State) : (writeWords128 w s).phase = s.phase := rfl
@[simp] theorem writeWords128_hostIn (w : Words128) (s : State) : (writeWords128 w s).hostIn = s.hostIn := rfl
@[simp] theorem writeWords128_taken (w : Words128) (s : State) : (writeWords128 w s).taken = s.taken := rfl
@[simp] theorem writeWords128_entIn (w : Words128) (s : State) : (writeWords128 w s).entIn = s.entIn := rfl
@[simp] theorem writeWords128_free (w : Words128) (s : State) : (writeWords128 w s).free = s.free := rfl

@[simp] theorem seedWith256_s256 (w : Words256) (s : State) : (seedWith256 w s).s256 = w := rfl
@[simp] theorem seedWith256_s128 (w : Words256) (s : State) : (seedWith256 w s).s128 = s.s128 := rfl
@[simp] theorem seedWith256_seeded256 (w : Words256) (s : State) : (seedWith256 w s).seeded256 = true := rfl
@[simp] theorem seedWith256_seeded128 (w : Words256) (s : State) : (seedWith256 w s).seeded128 = s.seeded128 := rfl
@[simp] theorem seedWith256_err (w : Words256) (s : State) : (seedWith256 w s).err = s.err := rfl
@[simp] theorem seedWith256_ecode (w : Words256) (s : State) : (seedWith256 w s).ecode = s.ecode := rfl
@[simp] theorem seedWith256_ecmd (w : Words256) (s : State) : (seedWith256 w s).ecmd = s.ecmd := rfl
@[simp] theorem seedWith256_phase (w : Words256) (s : State) : (seedWith256 w s).phase = s.phase := rfl
@[simp] theorem seedWith256_hostIn (w : Words256) (s : State) : (seedWith256 w s).hostIn = s.hostIn := rfl
@[simp] theorem seedWith256_taken (w : Words256) (s : State) : (seedWith256 w s).taken = s.taken := rfl
@[simp] theorem seedWith256_entIn (w : Words256) (s : State) : (seedWith256 w s).entIn = s.entIn := rfl
@[simp] theorem seedWith256_free (w : Words256) (s : State) : (seedWith256 w s).free = s.free := rfl

@[simp] theorem seedWith128_s256 (w : Words128) (s : State) : (seedWith128 w s).s256 = s.s256 := rfl
@[simp] theorem seedWith128_s128 (w : Words128) (s : State) : (seedWith128 w s).s128 = w := rfl
@[simp] theorem seedWith128_seeded256 (w : Words128) (s : State) : (seedWith128 w s).seeded256 = s.seeded256 := rfl
@[simp] theorem seedWith128_seeded128 (w : Words128) (s : State) : (seedWith128 w s).seeded128 = true := rfl
@[simp] theorem seedWith128_err (w : Words128) (s : State) : (seedWith128 w s).err = s.err := rfl
@[simp] theorem seedWith128_ecode (w : Words128) (s : State) : (seedWith128 w s).ecode = s.ecode := rfl
@[simp] theorem seedWith128_ecmd (w : Words128) (s : State) : (seedWith128 w s).ecmd = s.ecmd := rfl
@[simp] theorem seedWith128_phase (w : Words128) (s : State) : (seedWith128 w s).phase = s.phase := rfl
@[simp] theorem seedWith128_hostIn (w : Words128) (s : State) : (seedWith128 w s).hostIn = s.hostIn := rfl
@[simp] theorem seedWith128_taken (w : Words128) (s : State) : (seedWith128 w s).taken = s.taken := rfl
@[simp] theorem seedWith128_entIn (w : Words128) (s : State) : (seedWith128 w s).entIn = s.entIn := rfl
@[simp] theorem seedWith128_free (w : Words128) (s : State) : (seedWith128 w s).free = s.free := rfl

@[simp] theorem setProvider_s256 (p : Provider) (s : State) : (setProvider p s).s256 = s.s256 := rfl
@[simp] theorem setProvider_s128 (p : Provider) (s : State) : (setProvider p s).s128 = s.s128 := rfl
@[simp] theorem setProvider_seeded256 (p : Provider) (s : State) : (setProvider p s).seeded256 = s.seeded256 := rfl
@[simp] theorem setProvider_seeded128 (p : Provider) (s : State) : (setProvider p s).seeded128 = s.seeded128 := rfl
@[simp] theorem setProvider_err (p : Provider) (s : State) : (setProvider p s).err = s.err := rfl
@[simp] theorem setProvider_ecode (p : Provider) (s : State) : (setProvider p s).ecode = s.ecode := rfl
@[simp] theorem setProvider_ecmd (p : Provider) (s : State) : (setProvider p s).ecmd = s.ecmd := rfl
@[simp] theorem setProvider_phase (p : Provider) (s : State) : (setProvider p s).phase = s.phase := rfl
@[simp] theorem setProvider_hostIn (p : Provider) (s : State) : (setProvider p s).hostIn = s.hostIn := rfl
@[simp] theorem setProvider_taken (p : Provider) (s : State) : (setProvider p s).taken = s.taken := rfl
@[simp] theorem setProvider_entIn (p : Provider) (s : State) : (setProvider p s).entIn = p.1 := rfl
@[simp] theorem setProvider_free (p : Provider) (s : State) : (setProvider p s).free = p.2 := rfl

@[simp] theorem unseed256_s256 (s : State) : (unseed256 s).s256 = s.s256 := rfl
@[simp] theorem unseed256_s128 (s : State) : (unseed256 s).s128 = s.s128 := rfl
@[simp] theorem unseed256_seeded256 (s : State) : (unseed256 s).seeded256 = false := rfl
@[simp] theorem unseed256_seeded128 (s : State) : (unseed256 s).seeded128 = s.seeded128 := rfl
@[simp] theorem unseed256_err (s : State) : (unseed256 s).err = s.err := rfl
@[simp] theorem unseed256_ecode (s : State) : (unseed256 s).ecode = s.ecode := rfl
@[simp] theorem unseed256_ecmd (s : State) : (unseed256 s).ecmd = s.ecmd := rfl
@[simp] theorem unseed256_phase (s : State) : (unseed256 s).phase = s.phase := rfl
@[simp] theorem unseed256_hostIn (s : State) : (unseed256 s).hostIn = s.hostIn := rfl
@[simp] theorem unseed256_taken (s : State) : (unseed256 s).taken = s.taken := rfl
@[simp] theorem unseed256_entIn (s : State) : (unseed256 s).entIn = s.entIn := rfl
@[simp] theorem unseed256_free (s : State) : (unseed256 s).free = s.free := rfl

@[simp] theorem unseed128_s256 (s : State) : (unseed128 s).s256 = s.s256 := rfl
@[simp] theorem unseed128_s128 (s : State) : (unseed128 s).s128 = s.s128 := rfl
@[simp] theorem unseed128_seeded256 (s : State) : (unseed128 s).seeded256 = s.seeded256 := rfl
@[simp] theorem unseed128_seeded128 (s : State) : (unseed128 s).seeded128 = false := rfl
@[simp] theorem unseed128_err (s : State) : (unseed128 s).err = s.err := rfl
@[simp] theorem unseed128_ecode (s : State) : (unseed128 s).ecode = s.ecode := rfl
@[simp] theorem unseed128_ecmd (s : State) : (unseed128 s).ecmd = s.ecmd := rfl
@[simp] theorem unseed128_phase (s : State) : (unseed128 s).phase = s.phase := rfl
@[simp] theorem unseed128_hostIn (s : State) : (unseed128 s).hostIn = s.hostIn := rfl
@[simp] theorem unseed128_taken (s : State) : (unseed128 s).taken = s.taken := rfl
@[simp] theorem unseed128_entIn (s : State) : (unseed128 s).entIn = s.entIn := rfl
@[simp] theorem unseed128_free (s : State) : (unseed128 s).free = s.free := rfl

@[simp] theorem applyReset_seeded256 (s : State) : (applyReset s).seeded256 = false := rfl
@[simp] theorem applyReset_seeded128 (s : State) : (applyReset s).seeded128 = false := rfl
@[simp] theorem applyReset_err (s : State) : (applyReset s).err = false := rfl
@[simp] theorem applyReset_ecode (s : State) : (applyReset s).ecode = 0 := rfl
@[simp] theorem applyReset_ecmd (s : State) : (applyReset s).ecmd = 0 := rfl
@[simp] theorem applyReset_phase (s : State) : (applyReset s).phase = .idle := rfl
@[simp] theorem applyReset_hostIn (s : State) : (applyReset s).hostIn = s.hostIn := rfl
@[simp] theorem applyReset_taken (s : State) : (applyReset s).taken = s.taken := rfl
@[simp] theorem applyReset_entIn (s : State) : (applyReset s).entIn = s.entIn := rfl
@[simp] theorem applyReset_free (s : State) : (applyReset s).free = s.free + 6 := rfl
@[simp] theorem setProvider_provider (p : Provider) (s : State) : provider (setProvider p s) = p := rfl

end Sys2Proof.Machine
end

