-- ==== Sys2Proof/Laws/Ops.lean ====
section
/-! SUPPORT. What each shared operation can do, said once; callers cite these lemmas and do not unfold the operation. -/

namespace Sys2Proof.Machine

section Record
variable (code : BitVec 4) (c : CmdWord) (s : State)

theorem recordError_of_err (h : s.err = true) : recordError code c s = s := by simp [recordError, h]

theorem recordError_of_no_err (h : s.err = false) :
    recordError code c s = { s with err := true, ecode := code, ecmd := c } := by simp [recordError, h]

/-- The record is the first error's, and nothing else of the state changes. -/
theorem recordError_cases :
    (s.err = true ∧ recordError code c s = s) ∨
      (s.err = false ∧ recordError code c s = { s with err := true, ecode := code, ecmd := c }) := by
  cases h : s.err <;> simp [recordError, h]

@[simp] theorem recordError_err : (recordError code c s).err = true := by
  cases h : s.err <;> simp [recordError, h]
@[simp] theorem recordError_ecode : (recordError code c s).ecode = if s.err then s.ecode else code := by
  cases h : s.err <;> simp [recordError, h]
@[simp] theorem recordError_ecmd : (recordError code c s).ecmd = if s.err then s.ecmd else c := by
  cases h : s.err <;> simp [recordError, h]
@[simp] theorem recordError_s256 : (recordError code c s).s256 = s.s256 := by
  cases h : s.err <;> simp [recordError, h]
@[simp] theorem recordError_s128 : (recordError code c s).s128 = s.s128 := by
  cases h : s.err <;> simp [recordError, h]
@[simp] theorem recordError_seeded256 : (recordError code c s).seeded256 = s.seeded256 := by
  cases h : s.err <;> simp [recordError, h]
@[simp] theorem recordError_seeded128 : (recordError code c s).seeded128 = s.seeded128 := by
  cases h : s.err <;> simp [recordError, h]
@[simp] theorem recordError_phase : (recordError code c s).phase = s.phase := by
  cases h : s.err <;> simp [recordError, h]
@[simp] theorem recordError_hostIn : (recordError code c s).hostIn = s.hostIn := by
  cases h : s.err <;> simp [recordError, h]
@[simp] theorem recordError_taken : (recordError code c s).taken = s.taken := by
  cases h : s.err <;> simp [recordError, h]
@[simp] theorem recordError_entIn : (recordError code c s).entIn = s.entIn := by
  cases h : s.err <;> simp [recordError, h]
@[simp] theorem recordError_free : (recordError code c s).free = s.free := by
  cases h : s.err <;> simp [recordError, h]

end Record

section Draw

@[simp] theorem entropyDraw_ready (a : Draw) (rest : List Draw) (n : Nat) :
    entropyDraw (a :: rest, n) = (a, (rest, n)) := rfl
@[simp] theorem entropyDraw_free (n : Nat) : entropyDraw ([], n) = (Config.entropyAnswer n, ([], n + 1)) := rfl

/-- A draw of a `SEEDE` either gives a word and goes on, or fails and ends. -/
theorem drawThen_cases {W : Type} (p : Provider) (onWord : Word → Provider → Option W × Provider) :
    (∃ w, (entropyDraw p).1 = .ok w ∧ drawThen p onWord = onWord w (entropyDraw p).2) ∨
      ((entropyDraw p).1 = .fail ∧ drawThen p onWord = (none, (entropyDraw p).2)) := by
  unfold drawThen; split <;> rename_i h
  · exact .inl ⟨_, by rw [h], by rw [h]⟩
  · exact .inr ⟨by rw [h], by rw [h]⟩

end Draw

section Response

/-- Taking a response on offer frees the block and gives the response to the host. -/
theorem takeResponse_of_responding {s : State} {r : Response} (h : s.phase = .responding r) :
    takeResponse s = { s with phase := .idle, taken := r :: s.taken } := by simp [takeResponse, h]

@[simp] theorem takeResponse_respond (r : Response) (s : State) :
    takeResponse (respond r s) = { s with phase := .idle, taken := r :: s.taken } := rfl

theorem raise_eq (e : ErrorCause) (c : CmdWord) (s : State) :
    raise e c s = respond (.error (errorCode e)) (recordError (errorCode e) c s) := rfl

section Taken
variable (s : State)

/-- Taking a response touches nothing but the phase and the host's record of responses. -/
theorem takeResponse_cases : (∃ r, s.phase = .responding r ∧ takeResponse s = { s with phase := .idle, taken := r :: s.taken }) ∨
    ((∀ r, s.phase ≠ .responding r) ∧ takeResponse s = s) := by
  unfold takeResponse
  split <;> simp_all

@[simp] theorem takeResponse_s256 : (takeResponse s).s256 = s.s256 := by unfold takeResponse; split <;> rfl
@[simp] theorem takeResponse_s128 : (takeResponse s).s128 = s.s128 := by unfold takeResponse; split <;> rfl
@[simp] theorem takeResponse_seeded256 : (takeResponse s).seeded256 = s.seeded256 := by
  unfold takeResponse; split <;> rfl
@[simp] theorem takeResponse_seeded128 : (takeResponse s).seeded128 = s.seeded128 := by
  unfold takeResponse; split <;> rfl
@[simp] theorem takeResponse_err : (takeResponse s).err = s.err := by unfold takeResponse; split <;> rfl
@[simp] theorem takeResponse_ecode : (takeResponse s).ecode = s.ecode := by unfold takeResponse; split <;> rfl
@[simp] theorem takeResponse_ecmd : (takeResponse s).ecmd = s.ecmd := by unfold takeResponse; split <;> rfl
@[simp] theorem takeResponse_hostIn : (takeResponse s).hostIn = s.hostIn := by unfold takeResponse; split <;> rfl
@[simp] theorem takeResponse_entIn : (takeResponse s).entIn = s.entIn := by unfold takeResponse; split <;> rfl
@[simp] theorem takeResponse_free : (takeResponse s).free = s.free := by unfold takeResponse; split <;> rfl

end Taken

end Response

end Sys2Proof.Machine
end

