-- ==== Sys2Proof/Laws/Exec.lean ====
section
/-! SUPPORT. The six stepping commands by whether their engine is seeded and `SEEDE` by whether its draws succeed, and that every meaning answers a next state. -/

namespace Sys2Proof.Machine

section Stepping
variable {s : State}

theorem execNext256_seeded (h : s.seeded256 = true) :
    execNext256 s = .next (respond (.data (step256 s.s256).1) (writeWords256 (step256 s.s256).2 s)) := by
  simp [execNext256, h]
theorem execNext256_unseeded (h : s.seeded256 = false) : execNext256 s = .next (raise .unseeded 0x00 s) := by
  simp [execNext256, h]
theorem execJump256_seeded (h : s.seeded256 = true) :
    execJump256 s = .next (respond .done (writeWords256 (jump256 s.s256 jumpTable256) s)) := by
  simp [execJump256, h]
theorem execJump256_unseeded (h : s.seeded256 = false) : execJump256 s = .next (raise .unseeded 0x01 s) := by
  simp [execJump256, h]
theorem execLjump256_seeded (h : s.seeded256 = true) :
    execLjump256 s = .next (respond .done (writeWords256 (jump256 s.s256 ljumpTable256) s)) := by
  simp [execLjump256, h]
theorem execLjump256_unseeded (h : s.seeded256 = false) : execLjump256 s = .next (raise .unseeded 0x02 s) := by
  simp [execLjump256, h]
theorem execNext128_seeded (h : s.seeded128 = true) :
    execNext128 s = .next (respond (.data (step128 s.s128).1) (writeWords128 (step128 s.s128).2 s)) := by
  simp [execNext128, h]
theorem execNext128_unseeded (h : s.seeded128 = false) : execNext128 s = .next (raise .unseeded 0x80 s) := by
  simp [execNext128, h]
theorem execJump128_seeded (h : s.seeded128 = true) :
    execJump128 s = .next (respond .done (writeWords128 (jump128 s.s128 jumpTable128) s)) := by
  simp [execJump128, h]
theorem execJump128_unseeded (h : s.seeded128 = false) : execJump128 s = .next (raise .unseeded 0x81 s) := by
  simp [execJump128, h]
theorem execLjump128_seeded (h : s.seeded128 = true) :
    execLjump128 s = .next (respond .done (writeWords128 (jump128 s.s128 ljumpTable128) s)) := by
  simp [execLjump128, h]
theorem execLjump128_unseeded (h : s.seeded128 = false) : execLjump128 s = .next (raise .unseeded 0x82 s) := by
  simp [execLjump128, h]

theorem execSeede256_drawn {w : Words256} {p : Provider} (h : draw256 (provider s) = (some w, p)) :
    execSeede256 s = .next (respond .done (seedWith256 w (setProvider p s))) := by simp [execSeede256, h]
theorem execSeede256_failed {p : Provider} (h : draw256 (provider s) = (none, p)) :
    execSeede256 s = .next (entropyFail256 (setProvider p s)) := by simp [execSeede256, h]
theorem execSeede128_drawn {w : Words128} {p : Provider} (h : draw128 (provider s) = (some w, p)) :
    execSeede128 s = .next (respond .done (seedWith128 w (setProvider p s))) := by simp [execSeede128, h]
theorem execSeede128_failed {p : Provider} (h : draw128 (provider s) = (none, p)) :
    execSeede128 s = .next (entropyFail128 (setProvider p s)) := by simp [execSeede128, h]

end Stepping

/-- Every command has a next state in every state: "all operations are total functions over the full state space"
(60_exceptions.md R231). -/
theorem exec_answers_next (i : Instr) (s : State) : ∃ t, exec i s = .next t := by
  cases i
  case next256 => cases h : s.seeded256 <;> simp [exec, execNext256, h]
  case jump256 => cases h : s.seeded256 <;> simp [exec, execJump256, h]
  case ljump256 => cases h : s.seeded256 <;> simp [exec, execLjump256, h]
  case next128 => cases h : s.seeded128 <;> simp [exec, execNext128, h]
  case jump128 => cases h : s.seeded128 <;> simp [exec, execJump128, h]
  case ljump128 => cases h : s.seeded128 <;> simp [exec, execLjump128, h]
  case seede256 => rcases h : draw256 (provider s) with ⟨_ | w, p⟩ <;> simp [exec, execSeede256, h]
  case seede128 => rcases h : draw128 (provider s) with ⟨_ | w, p⟩ <;> simp [exec, execSeede128, h]
  all_goals exact ⟨_, rfl⟩

end Sys2Proof.Machine
end

