-- ==== Sys2Proof/Laws/Step.lean ====
section
/-! SUPPORT. Inversions: what a command, an accepting edge, a clock edge and a step can do, said once. -/

namespace Sys2Proof.Machine

/-- Raising an error, field by field. -/
theorem raise_explicit (e : ErrorCause) (c : CmdWord) (s : State) : raise e c s = { s with
    err := true
    ecode := if s.err then s.ecode else errorCode e
    ecmd := if s.err then s.ecmd else c
    phase := .responding (.error (errorCode e)) } := by
  cases h : s.err
  · simp [raise, recordError, respond, h]
  · simp only [raise, recordError, respond, h, if_true]

/-- All that a command can do: succeed on its engine, raise `UNSEEDED`, or be a `SEEDE` with a failed draw. Fields that no
case names keep their values. -/
inductive Effect (i : Instr) (s : State) : State → Prop
  | onG256 (w : Words256) (b : Bool) (r : Response) (p : Provider) (response : ∀ code, r ≠ .error code)
      (engine : i.engine = .g256) (seeded : b = true ∨ b = s.seeded256) (draws : i = .seede256 ∨ p = provider s) :
      Effect i s (respond r { setProvider p s with s256 := w, seeded256 := b })
  | onG128 (w : Words128) (b : Bool) (r : Response) (p : Provider) (response : ∀ code, r ≠ .error code)
      (engine : i.engine = .g128) (seeded : b = true ∨ b = s.seeded128) (draws : i = .seede128 ∨ p = provider s) :
      Effect i s (respond r { setProvider p s with s128 := w, seeded128 := b })
  | unseeded (needs : needsSeed i = true) (isUnseeded : engineSeeded i.engine s = false) :
      Effect i s (raise .unseeded (encode i).word s)
  | drawFails256 (p : Provider) (instr : i = .seede256) : Effect i s (entropyFail256 (setProvider p s))
  | drawFails128 (p : Provider) (instr : i = .seede128) : Effect i s (entropyFail128 (setProvider p s))

theorem exec_effect_exists (i : Instr) (s : State) : ∃ t, exec i s = .next t ∧ Effect i s t := by
  cases i
  case next256 =>
    rcases Bool.eq_false_or_eq_true s.seeded256 with h | h
    · exact ⟨_, execNext256_seeded h, .onG256 _ s.seeded256 _ (provider s) (by simp) rfl (by simp) (by simp)⟩
    · exact ⟨_, execNext256_unseeded h, .unseeded rfl h⟩
  case jump256 =>
    rcases Bool.eq_false_or_eq_true s.seeded256 with h | h
    · exact ⟨_, execJump256_seeded h, .onG256 _ s.seeded256 _ (provider s) (by simp) rfl (by simp) (by simp)⟩
    · exact ⟨_, execJump256_unseeded h, .unseeded rfl h⟩
  case ljump256 =>
    rcases Bool.eq_false_or_eq_true s.seeded256 with h | h
    · exact ⟨_, execLjump256_seeded h, .onG256 _ s.seeded256 _ (provider s) (by simp) rfl (by simp) (by simp)⟩
    · exact ⟨_, execLjump256_unseeded h, .unseeded rfl h⟩
  case next128 =>
    rcases Bool.eq_false_or_eq_true s.seeded128 with h | h
    · exact ⟨_, execNext128_seeded h, .onG128 _ s.seeded128 _ (provider s) (by simp) rfl (by simp) (by simp)⟩
    · exact ⟨_, execNext128_unseeded h, .unseeded rfl h⟩
  case jump128 =>
    rcases Bool.eq_false_or_eq_true s.seeded128 with h | h
    · exact ⟨_, execJump128_seeded h, .onG128 _ s.seeded128 _ (provider s) (by simp) rfl (by simp) (by simp)⟩
    · exact ⟨_, execJump128_unseeded h, .unseeded rfl h⟩
  case ljump128 =>
    rcases Bool.eq_false_or_eq_true s.seeded128 with h | h
    · exact ⟨_, execLjump128_seeded h, .onG128 _ s.seeded128 _ (provider s) (by simp) rfl (by simp) (by simp)⟩
    · exact ⟨_, execLjump128_unseeded h, .unseeded rfl h⟩
  case seede256 =>
    rcases h : draw256 (provider s) with ⟨_ | w, p⟩
    · exact ⟨_, execSeede256_failed h, .drawFails256 _ rfl⟩
    · exact ⟨_, execSeede256_drawn h, .onG256 _ true _ p (by simp) rfl (by simp) (by simp)⟩
  case seede128 =>
    rcases h : draw128 (provider s) with ⟨_ | w, p⟩
    · exact ⟨_, execSeede128_failed h, .drawFails128 _ rfl⟩
    · exact ⟨_, execSeede128_drawn h, .onG128 _ true _ p (by simp) rfl (by simp) (by simp)⟩
  case rdmin256 => exact ⟨_, rfl, .onG256 s.s256 s.seeded256 _ (provider s) (by simp) rfl (by simp) (by simp)⟩
  case rdmax256 => exact ⟨_, rfl, .onG256 s.s256 s.seeded256 _ (provider s) (by simp) rfl (by simp) (by simp)⟩
  case rdmin128 => exact ⟨_, rfl, .onG128 s.s128 s.seeded128 _ (provider s) (by simp) rfl (by simp) (by simp)⟩
  case rdmax128 => exact ⟨_, rfl, .onG128 s.s128 s.seeded128 _ (provider s) (by simp) rfl (by simp) (by simp)⟩
  all_goals first
    | exact ⟨_, rfl, .onG256 _ true _ (provider s) (by simp) rfl (by simp) (by simp)⟩
    | exact ⟨_, rfl, .onG128 _ true _ (provider s) (by simp) rfl (by simp) (by simp)⟩

theorem exec_effect {i : Instr} {s t : State} (h : exec i s = .next t) : Effect i s t := by
  obtain ⟨u, hu, e⟩ := exec_effect_exists i s
  rw [h] at hu; cases hu; exact e

/-- A command leaves its response on offer. -/
theorem Effect_responds {i : Instr} {s t : State} (e : Effect i s t) : ∃ r, t.phase = .responding r := by
  cases e <;> exact ⟨_, rfl⟩

/-- The step of a block that is offered a command is the command's transaction. -/
theorem step_command {s : State} {c : Command} {rest : List HostInput} (h : s.phase = .idle)
    (h' : s.hostIn = .command c :: rest) : step s = transact c { s with hostIn := rest } := by
  simp [step, machineStep, h, idleStep, h']

theorem step_no_input {s : State} (h : s.phase = .idle) (h' : s.hostIn = []) : step s = .next s := by
  simp [step, machineStep, h, idleStep, h']

theorem step_reset {s : State} {rest : List HostInput} (h : s.phase = .idle) (h' : s.hostIn = .reset :: rest) :
    step s = .next (applyReset { s with hostIn := rest }) := by
  simp [step, machineStep, h, idleStep, h']

theorem step_in_progress {s : State} (h : s.phase ≠ .idle) : step s = .next (systemEdge s) := by
  unfold step machineStep
  cases hp : s.phase <;> simp only [hp] at h ⊢
  exact absurd rfl h

/-- An edge with a command in the block is an edge of `clockEdge` with `rst = 0`, its environment's answer taken. -/
theorem systemEdge_in_progress {s : State} (h : s.phase ≠ .idle) :
    ∃ p q, p.rst = false ∧ systemEdge s = clockEdge p (setProvider q s) := by
  unfold systemEdge
  cases hp : s.phase
  case idle => exact absurd hp h
  case drawing256 req got => cases req <;> first | exact ⟨_, provider s, rfl, rfl⟩ | exact ⟨_, _, rfl, rfl⟩
  case drawing128 req got => cases req <;> first | exact ⟨_, provider s, rfl, rfl⟩ | exact ⟨_, _, rfl, rfl⟩
  all_goals exact ⟨_, provider s, rfl, rfl⟩

/-- The accepting edge either does all of the command, or only puts it in the block. -/
theorem startCommand_cases (i : Instr) (s : State) : exec i s = .next (startCommand i s) ∨
    ∃ ph, startCommand i s = { s with phase := ph } ∧ phaseOk { s with phase := ph } = true := by
  cases i
  case next256 =>
    left; obtain ⟨t, h, -⟩ := exec_effect_exists .next256 s
    rw [h]; simp only [exec] at h; simp [startCommand, h, nextOr]
  case next128 =>
    left; obtain ⟨t, h, -⟩ := exec_effect_exists .next128 s
    rw [h]; simp only [exec] at h; simp [startCommand, h, nextOr]
  case jump256 =>
    rcases Bool.eq_false_or_eq_true s.seeded256 with h | h
    · right; exact ⟨_, by simp [startCommand, h]; rfl, by simp [phaseOk, h]⟩
    · left; simp [startCommand, exec, execJump256, h]
  case ljump256 =>
    rcases Bool.eq_false_or_eq_true s.seeded256 with h | h
    · right; exact ⟨_, by simp [startCommand, h]; rfl, by simp [phaseOk, h]⟩
    · left; simp [startCommand, exec, execLjump256, h]
  case jump128 =>
    rcases Bool.eq_false_or_eq_true s.seeded128 with h | h
    · right; exact ⟨_, by simp [startCommand, h]; rfl, by simp [phaseOk, h]⟩
    · left; simp [startCommand, exec, execJump128, h]
  case ljump128 =>
    rcases Bool.eq_false_or_eq_true s.seeded128 with h | h
    · right; exact ⟨_, by simp [startCommand, h]; rfl, by simp [phaseOk, h]⟩
    · left; simp [startCommand, exec, execLjump128, h]
  all_goals first | (left; rfl) | (right; exact ⟨_, rfl, rfl⟩)

/-- A jump cycle does the next iteration, or the last one and then the command responds. -/
theorem jumpCycle256_cases (load : Bool) (tab : JumpKind) (idx : Fin 256) (acc : Words256) (s : State) :
    (∃ last : idx.val + 1 < 256, jumpCycle256 load tab idx acc s = { s with
      s256 := advance256 s.s256
      phase := .jumping256 load tab ⟨idx.val + 1, last⟩
        (if tableBit (table256 tab) idx.val then xor256 acc s.s256 else acc) }) ∨
    (idx.val = 255 ∧ jumpCycle256 load tab idx acc s = respond .done { s with
      s256 := if tableBit (table256 tab) idx.val then xor256 acc s.s256 else acc
      seeded256 := s.seeded256 || load }) := by
  unfold jumpCycle256
  by_cases h : idx.val + 1 < 256
  · exact .inl ⟨h, by simp only [dif_pos h]; rfl⟩
  · exact .inr ⟨by omega, by simp only [dif_neg h]; rfl⟩

/-- The same of a G128 jump. -/
theorem jumpCycle128_cases (load : Bool) (tab : JumpKind) (idx : Fin 128) (acc : Words128) (s : State) :
    (∃ last : idx.val + 1 < 128, jumpCycle128 load tab idx acc s = { s with
      s128 := advance128 s.s128
      phase := .jumping128 load tab ⟨idx.val + 1, last⟩
        (if tableBit (table128 tab) idx.val then xor128 acc s.s128 else acc) }) ∨
    (idx.val = 127 ∧ jumpCycle128 load tab idx acc s = respond .done { s with
      s128 := if tableBit (table128 tab) idx.val then xor128 acc s.s128 else acc
      seeded128 := s.seeded128 || load }) := by
  unfold jumpCycle128
  by_cases h : idx.val + 1 < 128
  · exact .inl ⟨h, by simp only [dif_pos h]; rfl⟩
  · exact .inr ⟨by omega, by simp only [dif_neg h]; rfl⟩

/-- A drawn word completes `SEEDE256` as the fourth, and otherwise joins those drawn. -/
theorem wordDrawn256_cases (got : List Word) (w : Word) (s : State) :
    (∃ w0 w1 w2, got = [w0, w1, w2] ∧ wordDrawn256 got w s = respond .done (seedWith256 ⟨w0, w1, w2, w⟩ s)) ∨
    (got.length ≠ 3 ∧ wordDrawn256 got w s = { s with phase := .drawing256 false (got ++ [w]) }) := by
  unfold wordDrawn256
  split
  · exact .inl ⟨_, _, _, rfl, rfl⟩
  · rename_i h
    refine .inr ⟨fun hl => ?_, rfl⟩
    match got, hl with
    | [a, b, c], _ => exact h a b c rfl

/-- A drawn word completes `SEEDE128` as the second, and otherwise joins those drawn. -/
theorem wordDrawn128_cases (got : List Word) (w : Word) (s : State) :
    (∃ w0, got = [w0] ∧ wordDrawn128 got w s = respond .done (seedWith128 ⟨w0, w⟩ s)) ∨
    (got.length ≠ 1 ∧ wordDrawn128 got w s = { s with phase := .drawing128 false (got ++ [w]) }) := by
  unfold wordDrawn128
  split
  · exact .inl ⟨_, rfl, rfl⟩
  · rename_i h
    refine .inr ⟨fun hl => ?_, rfl⟩
    match got, hl with
    | [a], _ => exact h a rfl

section Edge
variable {s : State}

/-- The edge on which the host's next command is accepted. -/
theorem systemEdge_command {c : Command} {rest : List HostInput} (h : s.phase = .idle)
    (h' : s.hostIn = .command c :: rest) : systemEdge s = acceptCommand c { s with hostIn := rest } := by
  simp only [systemEdge, h, h']; simp [clockEdge, environmentPorts, h']

theorem systemEdge_loading256 {w : Words256} (h : s.phase = .loading256 w) :
    systemEdge s = { s with s256 := w, phase := .jumping256 true .short 0 zero256 } := by
  simp only [systemEdge, h]; simp [clockEdge, h, environmentPorts]

theorem systemEdge_loading128 {w : Words128} (h : s.phase = .loading128 w) :
    systemEdge s = { s with s128 := w, phase := .jumping128 true .short 0 zero128 } := by
  simp only [systemEdge, h]; simp [clockEdge, h, environmentPorts]

theorem systemEdge_jumping256 {load : Bool} {tab : JumpKind} {idx : Fin 256} {acc : Words256}
    (h : s.phase = .jumping256 load tab idx acc) : systemEdge s = jumpCycle256 load tab idx acc s := by
  simp only [systemEdge, h]; simp [clockEdge, h, environmentPorts]

theorem systemEdge_jumping128 {load : Bool} {tab : JumpKind} {idx : Fin 128} {acc : Words128}
    (h : s.phase = .jumping128 load tab idx acc) : systemEdge s = jumpCycle128 load tab idx acc s := by
  simp only [systemEdge, h]; simp [clockEdge, h, environmentPorts]

/-- The edge on which the provider answers a draw of `SEEDE256`. -/
theorem systemEdge_drawing256 {got : List Word} (h : s.phase = .drawing256 true got) :
    systemEdge s = match (entropyDraw (provider s)).1 with
      | .ok w => wordDrawn256 got w (setProvider (entropyDraw (provider s)).2 s)
      | .fail => entropyFail256 (setProvider (entropyDraw (provider s)).2 s) := by
  simp only [systemEdge, h]; simp only [clockEdge, setProvider, h, environmentPorts]
  cases (entropyDraw (provider s)).1 <;> simp

/-- The edge on which the provider answers a draw of `SEEDE128`. -/
theorem systemEdge_drawing128 {got : List Word} (h : s.phase = .drawing128 true got) :
    systemEdge s = match (entropyDraw (provider s)).1 with
      | .ok w => wordDrawn128 got w (setProvider (entropyDraw (provider s)).2 s)
      | .fail => entropyFail128 (setProvider (entropyDraw (provider s)).2 s) := by
  simp only [systemEdge, h]; simp only [clockEdge, setProvider, h, environmentPorts]
  cases (entropyDraw (provider s)).1 <;> simp

/-- The edge that raises `ent_req` for the next draw. -/
theorem systemEdge_raises256 {got : List Word} (h : s.phase = .drawing256 false got) :
    systemEdge s = { s with phase := .drawing256 true got } := by
  simp only [systemEdge, h]; simp [clockEdge, h, environmentPorts]

theorem systemEdge_raises128 {got : List Word} (h : s.phase = .drawing128 false got) :
    systemEdge s = { s with phase := .drawing128 true got } := by
  simp only [systemEdge, h]; simp [clockEdge, h, environmentPorts]

theorem systemEdge_responding {r : Response} (h : s.phase = .responding r) : systemEdge s = takeResponse s := by
  simp only [systemEdge, h]; simp [clockEdge, h, environmentPorts]

end Edge

/-- A run of the host's core goes on from the state a step answers. -/
theorem run_succ {s t : State} (n : Nat) (h : step s = .next t) :
    Host.Core.run core (n + 1) s = Host.Core.run core n t := by
  simp only [Host.Core.run, core]
  rw [h]

end Sys2Proof.Machine
end

