-- ==== Sys2Proof/Laws/Draws.lean ====
section
/-! SUPPORT. What the draws of a list of commands are: none without a `SEEDE`, the same from one provider as from its
equal, and enough to fix what each `SEEDE` does. -/

namespace Sys2Proof.Machine

/-- A `SEEDE` makes as many draws as `drawsMade` counts. -/
theorem drawsUsed_length (n : Nat) (p : Provider) : (drawsUsed n p).length = drawsMade n p := by
  induction n generalizing p with
  | zero => rfl
  | succ n ih => rcases h : entropyDraw p with ⟨_ | _, q⟩ <;> simp [drawsUsed, drawsMade, h, ih]

/-- The draws of one `SEEDE` are told apart from what follows them by themselves: they end at the first `fail` or the last
word. -/
theorem drawsUsed_append_inj (n : Nat) {p q : Provider} {xs ys : List Draw}
    (h : drawsUsed n p ++ xs = drawsUsed n q ++ ys) : drawsUsed n p = drawsUsed n q ∧ xs = ys := by
  induction n generalizing p q with
  | zero => exact ⟨rfl, h⟩
  | succ n ih =>
    rcases hp : entropyDraw p with ⟨_ | _, p'⟩ <;> rcases hq : entropyDraw q with ⟨_ | _, q'⟩ <;>
      simp only [drawsUsed, hp, hq, List.cons_append, List.nil_append, List.cons.injEq, Draw.ok.injEq, reduceCtorEq,
        false_and, true_and] at h ⊢
    · exact ⟨⟨h.1, (ih h.2).1⟩, (ih h.2).2⟩
    · exact h

/-- `SEEDE256` gets its words from its draws alone: one each, or none where a draw failed. -/
theorem draw256_eq (p : Provider) : (draw256 p).1 =
    match drawsUsed 4 p with
    | [.ok w0, .ok w1, .ok w2, .ok w3] => some ⟨w0, w1, w2, w3⟩
    | _ => none := by
  rcases h0 : entropyDraw p with ⟨_ | _, p1⟩ <;> simp only [draw256, drawThen, drawsUsed, h0]
  rcases h1 : entropyDraw p1 with ⟨_ | _, p2⟩ <;> simp only
  rcases h2 : entropyDraw p2 with ⟨_ | _, p3⟩ <;> simp only
  rcases h3 : entropyDraw p3 with ⟨_ | _, p4⟩ <;> simp only

/-- `SEEDE128` gets its words from its draws alone. -/
theorem draw128_eq (p : Provider) : (draw128 p).1 =
    match drawsUsed 2 p with
    | [.ok w0, .ok w1] => some ⟨w0, w1⟩
    | _ => none := by
  rcases h0 : entropyDraw p with ⟨_ | _, p1⟩ <;> simp only [draw128, drawThen, drawsUsed, h0]
  rcases h1 : entropyDraw p1 with ⟨_ | _, p2⟩ <;> simp only

/-- Commands with no `SEEDE` among them make no draws, from any state. -/
theorem drawsOf_eq_nil {is : List Instr} (h : .seede256 ∉ is) (h' : .seede128 ∉ is) (s : State) : drawsOf is s = [] := by
  induction is generalizing s with
  | nil => rfl
  | cons i is ih =>
    simp only [List.mem_cons, not_or] at h h'
    have none : wordsDrawn i = 0 := by cases i <;> first | rfl | exact absurd rfl h.1 | exact absurd rfl h'.1
    simp only [drawsOf, none, drawsUsed, List.nil_append]
    exact ih h.2 h'.2 _

/-- What a command leaves of the provider depends on nothing else of the state. -/
theorem exec_provider {s t : State} (i : Instr) (h : provider s = provider t) :
    provider (nextOr s (exec i s)) = provider (nextOr t (exec i t)) := by
  have left (u : State) (ne : i ≠ .seede256) (ne' : i ≠ .seede128) : provider (nextOr u (exec i u)) = provider u := by
    obtain ⟨v, hv, e⟩ := exec_effect_exists i u
    rw [hv]
    cases e <;> simp_all [provider, nextOr, setProvider, raise, respond]
  by_cases h256 : i = .seede256
  · subst h256
    rcases d : draw256 (provider t) with ⟨_ | w, p⟩
    · simp [exec, execSeede256_failed d, execSeede256_failed (h ▸ d), nextOr, entropyFail256, raise, respond, provider]
    · simp [exec, execSeede256_drawn d, execSeede256_drawn (h ▸ d), nextOr, provider]
  by_cases h128 : i = .seede128
  · subst h128
    rcases d : draw128 (provider t) with ⟨_ | w, p⟩
    · simp [exec, execSeede128_failed d, execSeede128_failed (h ▸ d), nextOr, entropyFail128, raise, respond, provider]
    · simp [exec, execSeede128_drawn d, execSeede128_drawn (h ▸ d), nextOr, provider]
  rw [left s h256 h128, left t h256 h128, h]

/-- Blocks whose providers have the same answers to come make the same draws. -/
theorem drawsOf_congr (is : List Instr) {s t : State} (h : provider s = provider t) : drawsOf is s = drawsOf is t := by
  induction is generalizing s t with
  | nil => rfl
  | cons i is ih =>
    have next := exec_provider i h
    simp only [drawsOf, h]
    rw [ih (s := takeResponse (nextOr s (exec i s))) (t := takeResponse (nextOr t (exec i t)))]
    simpa [provider] using next

end Sys2Proof.Machine
end

