-- ==== Sys2Proof/Laws/PerInstr.lean ====
section
/-! SUPPORT. The statements made per instruction. `EncodingLegal`: the command word the encoder gives is legal and its
top bit selects the instruction's engine (30_encoding.md R71, R75). -/

namespace Sys2Proof.Laws.EncodingLegal

/-- The encoder's command word passes the legality check, and `E` is the engine the instruction addresses. -/
def Statement (i : Instr) : Prop :=
  legalWord (encode i).word = true ∧ (encode i).word.getLsbD 7 = decide (i.engine = .g128)

theorem next256 : Statement .next256 := ⟨by decide, by decide⟩
theorem jump256 : Statement .jump256 := ⟨by decide, by decide⟩
theorem ljump256 : Statement .ljump256 := ⟨by decide, by decide⟩
theorem loadj256 (w0 w1 w2 w3 : Word) : Statement (.loadj256 w0 w1 w2 w3) := by
  simp [Statement, encode, Instr.engine, legalWord, rsvIsZero, opIsDefined]
theorem load256 (w0 w1 w2 w3 : Word) : Statement (.load256 w0 w1 w2 w3) := by
  simp [Statement, encode, Instr.engine, legalWord, rsvIsZero, opIsDefined]
theorem seedc256 (s0 : Word) : Statement (.seedc256 s0) := by
  simp [Statement, encode, Instr.engine, legalWord, rsvIsZero, opIsDefined]
theorem seedm256 (s0 : Word) : Statement (.seedm256 s0) := by
  simp [Statement, encode, Instr.engine, legalWord, rsvIsZero, opIsDefined]
theorem seede256 : Statement .seede256 := ⟨by decide, by decide⟩
theorem rdmin256 : Statement .rdmin256 := ⟨by decide, by decide⟩
theorem rdmax256 : Statement .rdmax256 := ⟨by decide, by decide⟩
theorem next128 : Statement .next128 := ⟨by decide, by decide⟩
theorem jump128 : Statement .jump128 := ⟨by decide, by decide⟩
theorem ljump128 : Statement .ljump128 := ⟨by decide, by decide⟩
theorem loadj128 (w0 w1 : Word) : Statement (.loadj128 w0 w1) := by
  simp [Statement, encode, Instr.engine, legalWord, rsvIsZero, opIsDefined]
theorem load128 (w0 w1 : Word) : Statement (.load128 w0 w1) := by
  simp [Statement, encode, Instr.engine, legalWord, rsvIsZero, opIsDefined]
theorem seedc128 (s0 : Word) : Statement (.seedc128 s0) := by
  simp [Statement, encode, Instr.engine, legalWord, rsvIsZero, opIsDefined]
theorem seedm128 (s0 : Word) : Statement (.seedm128 s0) := by
  simp [Statement, encode, Instr.engine, legalWord, rsvIsZero, opIsDefined]
theorem seede128 : Statement .seede128 := ⟨by decide, by decide⟩
theorem rdmin128 : Statement .rdmin128 := ⟨by decide, by decide⟩
theorem rdmax128 : Statement .rdmax128 := ⟨by decide, by decide⟩

end Sys2Proof.Laws.EncodingLegal
end

