-- ==== Sys2Proof/Tests/Slice0.lean ====
section
/-! SUPPORT. Tests of the model, each one step or one value. Expected results are those that spec/ prints: the examples of
the rules, and the vectors of 95_test_vectors.md, named in each section (`M` there is all-ones). After them, the states
and operands that meet the hypotheses of each obligation: theorem `witness_<obligation>`. -/

namespace Sys2Proof.Tests

open Sys2Proof.Machine

/-! ## Well-formedness (30_encoding.md R73, R78) -/

theorem test_wellformed_rejects_reserved_field : rsvIsZero 0x10 = false ∧ legalWord 0x10 = false := by decide
theorem test_wellformed_rejects_reserved_field_top : rsvIsZero 0xC0 = false ∧ legalWord 0xC0 = false := by decide
theorem test_wellformed_rejects_operation : opIsDefined 0x0A = false ∧ legalWord 0x0A = false := by decide
theorem test_wellformed_rejects_operation_g128 : opIsDefined 0x8F = false ∧ legalWord 0x8F = false := by decide
theorem test_wellformed_accepts_last_words : legalWord 0x09 = true ∧ legalWord 0x89 = true := by decide

/-! ## Decoding: each word `E RSV OP` written out bit by bit from R70, R71 and R72 -/

/-- The command of word `w` with operands 11, 12, 13, 14. -/
def word (w : CmdWord) : Command := ⟨w, 11, 12, 13, 14⟩

theorem test_decode_next256 : decode (word 0b0_000_0000) = .ok .next256 := by decide
theorem test_decode_jump256 : decode (word 0b0_000_0001) = .ok .jump256 := by decide
theorem test_decode_ljump256 : decode (word 0b0_000_0010) = .ok .ljump256 := by decide
theorem test_decode_loadj256 : decode (word 0b0_000_0011) = .ok (.loadj256 11 12 13 14) := by decide
theorem test_decode_load256 : decode (word 0b0_000_0100) = .ok (.load256 11 12 13 14) := by decide
theorem test_decode_seedc256 : decode (word 0b0_000_0101) = .ok (.seedc256 11) := by decide
theorem test_decode_seedm256 : decode (word 0b0_000_0110) = .ok (.seedm256 11) := by decide
theorem test_decode_seede256 : decode (word 0b0_000_0111) = .ok .seede256 := by decide
theorem test_decode_rdmin256 : decode (word 0b0_000_1000) = .ok .rdmin256 := by decide
theorem test_decode_rdmax256 : decode (word 0b0_000_1001) = .ok .rdmax256 := by decide
theorem test_decode_next128 : decode (word 0b1_000_0000) = .ok .next128 := by decide
theorem test_decode_jump128 : decode (word 0b1_000_0001) = .ok .jump128 := by decide
theorem test_decode_ljump128 : decode (word 0b1_000_0010) = .ok .ljump128 := by decide
theorem test_decode_loadj128 : decode (word 0b1_000_0011) = .ok (.loadj128 11 12) := by decide
theorem test_decode_load128 : decode (word 0b1_000_0100) = .ok (.load128 11 12) := by decide
theorem test_decode_seedc128 : decode (word 0b1_000_0101) = .ok (.seedc128 11) := by decide
theorem test_decode_seedm128 : decode (word 0b1_000_0110) = .ok (.seedm128 11) := by decide
theorem test_decode_seede128 : decode (word 0b1_000_0111) = .ok .seede128 := by decide
theorem test_decode_rdmin128 : decode (word 0b1_000_1000) = .ok .rdmin128 := by decide
theorem test_decode_rdmax128 : decode (word 0b1_000_1001) = .ok .rdmax128 := by decide
/-- VE: `0x7A` fails both checks, the reserved field first. -/
theorem test_decode_refuses_by_name : decode (word 0x7A) = .error .reservedFieldNotZero ∧
    decode (word 0x0F) = .error .operationNotDefined := by decide
theorem test_decode_table_word : decodeTableWord 8 0x83 = some (.loadj128 0 0) ∧ decodeTableWord 8 0x8A = none := by
  decide

/-! ## Datapath: vectors VD-1, VD-2, V256-1, V128-1, VJ-1 -/

theorem test_rotl_24 : rotl 0x0123456789abcdef 24 = 0x6789abcdef012345 := by decide
theorem test_rotl_45 : rotl 0x0123456789abcdef 45 = 0x79bde02468acf135 := by decide
theorem test_rotl_ends : rotl 1 63 = 0x8000000000000000 ∧ rotl 0x8000000000000000 1 = 1 := by decide
theorem test_scr_wraps : scr 0x0123456789abcdef = 0x9999999999998192 ∧
    scr 0x3333333333333333 = 0xfffffffffffffff7 := by decide
theorem test_step256_shift_reaches_word2 : step256 ⟨0, 1, 0, 0⟩ = (0x1680, ⟨1, 1, 0x20000, 0x200000000000⟩) := by decide
theorem test_step128_second_row : step128 ⟨1, 0⟩ = (0x1680, ⟨0x1010001, 0x2000000000⟩) := by decide
theorem test_jump256_sixteen_steps : jump256 ⟨1, 2, 3, 4⟩ [0x10000, 0, 0, 0] =
    ⟨0x2f6b4edfa425e30f, 0x79f59ef58c1c8899, 0x56c35b3e84c13cc7, 0xc86ea6b5015f3bbb⟩ := by decide +kernel
theorem test_jump128_sixteen_steps : jump128 ⟨1, 2⟩ [0x10000, 0] = ⟨0x86b35f851dbf2860, 0x079077ed5faabc87⟩ := by
  decide +kernel

/-! ## Commands -/

/-- A block after reset but for a loaded G256 and a loaded G128. -/
def loaded (w : Words256) (x : Words128) : State :=
  { State.reset with s256 := w, seeded256 := true, s128 := x, seeded128 := true }

/-- A block after reset whose entropy provider has `draws` ready. -/
def provided (draws : List Draw) : State := { State.reset with entIn := draws }

/-- What a command leaves: the state its next state is. -/
def after (i : Instr) (s : State) : State := nextOr s (exec i s)

/-- V256-1, first row. -/
theorem test_next256 : (after .next256 (loaded ⟨1, 2, 3, 4⟩ ⟨0, 0⟩)).phase = .responding (.data 0x2d00) ∧
    (after .next256 (loaded ⟨1, 2, 3, 4⟩ ⟨0, 0⟩)).s256 = ⟨0x7, 0, 0x40002, 0xc00000000000⟩ := by decide
/-- V256-1, fourth row: `(M, M, M, M)`. -/
theorem test_next256_all_ones : (after .next256 (loaded State.reset.s256 ⟨0, 0⟩)).phase =
    .responding (.data 0xffffffffffffedf7) ∧ (after .next256 (loaded State.reset.s256 ⟨0, 0⟩)).s256 =
    ⟨0xffffffffffffffff, 0xffffffffffffffff, 0xfffffffffffe0000, 0⟩ := by decide
/-- V256-3: `jump256` from `(1, 2, 3, 4)` is tested by `test_loadj256`; a second one from there. -/
theorem test_jump256_twice : (after .jump256 (loaded
    ⟨0x8c7a153956b5f3d1, 0x701f1a713401d85e, 0x6527f66a65469085, 0x8386b786c4408050⟩ ⟨0, 0⟩)).s256 =
    ⟨0x46f0982578de9ff7, 0xb1ba9f06c0b88626, 0x0f85ed0825d9669d, 0x9764a25d66e64f2c⟩ := by decide +kernel
/-- V256-3: unseeded. -/
theorem test_jump256_unseeded : (after .jump256 State.reset).phase = .responding (.error 2) := by decide
/-- V256-3. -/
theorem test_ljump256 : (after .ljump256 (loaded ⟨1, 2, 3, 4⟩ ⟨0, 0⟩)).s256 =
    ⟨0x096a8eb71295a400, 0xdbf84991e50f4516, 0x534ee745810d2a0e, 0x31655ca1a2215bf1⟩ := by decide +kernel
/-- V256-4. -/
theorem test_loadj256 : (after (.loadj256 1 2 3 4) State.reset).s256 =
    ⟨0x8c7a153956b5f3d1, 0x701f1a713401d85e, 0x6527f66a65469085, 0x8386b786c4408050⟩ := by decide +kernel
/-- R145 and VE: `STATUS` is `0x0002`. -/
theorem test_load256 : (after (.load256 1 2 3 4) State.reset).s256 = ⟨1, 2, 3, 4⟩ ∧
    status (takeResponse (after (.load256 1 2 3 4) State.reset)) = 0x0002 := by decide
/-- V256-7: the pre-jump words of seed `M`. -/
theorem test_seedc256_words : seedc256Words 0xffffffffffffffff =
    ⟨0xffffffffffffffff, 0xfffffffff0ff0ff0, 0xffffffff0ff0ff0f, 0xfffffff0ff0ff0ff⟩ := by decide
/-- V256-7: seed 42. -/
theorem test_seedc256 : (after (.seedc256 42) State.reset).s256 =
    ⟨0x9bdb3f3d548b02c2, 0x9e8691694676eb1d, 0xb4e611286e159139, 0x9ec0905f90848d61⟩ := by decide +kernel
/-- V256-8: seed 1, whose word 3 is the listed value XOR `K_SEEDM256`, here at 0 and at all-ones. -/
theorem test_seedm256 : seedm256Words 0 1 = ⟨1, 0xf0ff00dd00f0f00d, 0xe1febeef3d14a0e9, 0x7f987c0b21eda5fb⟩ ∧
    (seedm256Words 0xffffffffffffffff 1).s3 = ~~~0x7f987c0b21eda5fb := by decide
/-- V256-8: seed `M`, whose sum `s2 + s1` wraps. -/
theorem test_seedm256_wraps : seedm256Words 0 0xffffffffffffffff =
    ⟨0xffffffffffffffff, 0x0f00ff22ff0f0ff3, 0x1e016110c2eb5f16, 0xc06783f4de125a04⟩ := by decide
/-- R155: the rule's example. -/
theorem test_seede256 : (after .seede256 (provided [.ok 5, .ok 6, .ok 7, .ok 8])).s256 = ⟨5, 6, 7, 8⟩ ∧
    (after .seede256 (provided [.ok 5, .ok 6, .ok 7, .ok 8])).seeded256 = true := by decide
/-- V256-9: the third draw fails, no fourth is made, and the engine is not seeded. -/
theorem test_seede256_fails : (after .seede256 (provided [.ok 1, .ok 2, .fail, .ok 4])).phase = .responding (.error 3) ∧
    (after .seede256 (provided [.ok 1, .ok 2, .fail, .ok 4])).entIn = [.ok 4] := by decide
/-- VR-1. -/
theorem test_rdmin256 : (after .rdmin256 State.reset).phase = .responding (.data 0) := by decide
/-- VR-1. -/
theorem test_rdmax256 : (after .rdmax256 State.reset).phase = .responding (.data 0xffffffffffffffff) := by decide
/-- V128-1, first row. -/
theorem test_next128 : (after .next128 (loaded ⟨0, 0, 0, 0⟩ ⟨1, 2⟩)).phase = .responding (.data 0x1680) ∧
    (after .next128 (loaded ⟨0, 0, 0, 0⟩ ⟨1, 2⟩)).s128 = ⟨0x1030003, 0x6000000000⟩ := by decide
/-- V128-1, fourth row: `(M, M)`. -/
theorem test_next128_all_ones : (after .next128 (loaded ⟨0, 0, 0, 0⟩ State.reset.s128)).s128 =
    ⟨0xffffffffffffffff, 0⟩ := by decide
/-- V128-3: from `(M, M)`. -/
theorem test_jump128 : (after .jump128 (loaded ⟨0, 0, 0, 0⟩ State.reset.s128)).s128 =
    ⟨0x24543f5bf08437ae, 0xfcc6302f4fd7fe10⟩ := by decide +kernel
/-- V128-3. -/
theorem test_ljump128 : (after .ljump128 (loaded ⟨0, 0, 0, 0⟩ ⟨1, 2⟩)).s128 =
    ⟨0x3ce44494d47d323a, 0x2aa25ca8d61de643⟩ := by decide +kernel
/-- V128-3: unseeded. -/
theorem test_ljump128_unseeded : (after .ljump128 State.reset).phase = .responding (.error 2) := by decide
/-- V128-4. -/
theorem test_loadj128 : (after (.loadj128 1 2) State.reset).s128 = ⟨0x66fbd4be1df0a7b5, 0x830c3ddbb4aa3172⟩ := by
  decide +kernel
/-- R195 and VE: `STATUS` is `0x0004`. -/
theorem test_load128 : (after (.load128 1 2) State.reset).s128 = ⟨1, 2⟩ ∧
    status (takeResponse (after (.load128 1 2) State.reset)) = 0x0004 := by decide
/-- V128-6: seed 117171716 has the pre-jump word 1 equal to 0. -/
theorem test_seedc128_words : seedc128Words 117171716 = ⟨0x6fbe604, 0⟩ := by decide
/-- V128-6: seed 117171716. -/
theorem test_seedc128 : (after (.seedc128 117171716) State.reset).s128 = ⟨0x237ad1309860497d, 0x74cec53baee06c10⟩ := by
  decide +kernel
/-- V128-7. -/
theorem test_seedm128 : (after (.seedm128 42) State.reset).s128 = ⟨0x2a, 0x6a7e604⟩ := by decide
/-- V128-7: seed 0 wraps. -/
theorem test_seedm128_wraps : (after (.seedm128 0) State.reset).s128 = ⟨0, 0x6fbe604⟩ := by decide
/-- V128-8. -/
theorem test_seede128 : (after .seede128 (provided [.ok 1, .ok 2])).s128 = ⟨1, 2⟩ := by decide
/-- V128-8: the first draw fails and no second is made; on a seeded engine the words stay and the bit is cleared. -/
theorem test_seede128_fails :
    (after .seede128 { loaded ⟨0, 0, 0, 0⟩ ⟨1, 2⟩ with entIn := [.fail, .ok 9] }).s128 = ⟨1, 2⟩ ∧
    (after .seede128 { loaded ⟨0, 0, 0, 0⟩ ⟨1, 2⟩ with entIn := [.fail, .ok 9] }).seeded128 = false := by decide
/-- VR-1: after an error. -/
theorem test_rdmin128 : (after .rdmin128 { State.reset with err := true }).phase = .responding (.data 0) := by decide
/-- VR-1: after an error. -/
theorem test_rdmax128 : (after .rdmax128 { State.reset with err := true }).phase =
    .responding (.data 0xffffffffffffffff) := by decide

/-! ## Errors, `STATUS` and the step: vector VE -/

/-- The state after one step of a block after reset to which word `w` is offered. -/
def afterWord (w : Nat) : State := nextOr State.reset (step (State.reset.withFetchWord 8 w))

theorem test_status_next256_unseeded : status (afterWord 0x00) = 0x0028 ∧ (afterWord 0x00).taken = [.error 2] := by decide
theorem test_status_jump128_unseeded : status (afterWord 0x81) = 0x8128 := by decide
theorem test_status_illegal_operation : status (afterWord 0x0A) = 0x0A18 ∧ (afterWord 0x0A).taken = [.error 1] := by decide
theorem test_status_illegal_before_unseeded : status (afterWord 0x10) = 0x1018 ∧ (afterWord 0x10).taken = [.error 1] := by
  decide
theorem test_status_both_checks : status (afterWord 0x7A) = 0x7A18 ∧ status (afterWord 0xFF) = 0xFF18 := by decide
theorem test_status_rdmin256 : status (afterWord 0x08) = 0x0000 ∧ (afterWord 0x08).taken = [.data 0] := by decide
/-- P5, its end: `STATUS` is `0x8738` after a failed `SEEDE128` as the first error. -/
theorem test_status_entropy_fail : status (takeResponse (after .seede128 (provided [.fail]))) = 0x8738 := by decide
/-- The sticky record of VE: a later error only responds. -/
theorem test_status_sticky : status (takeResponse (after .next256 (afterWord 0x0A))) = 0x0A18 ∧
    (after .next256 (afterWord 0x0A)).phase = .responding (.error 2) := by decide
/-- R53: `BUSY` is 1 while the response is on offer. -/
theorem test_status_busy : (status (after .rdmin256 State.reset)).getLsbD 0 = true := by decide
/-- R76: what each response drives on `rsp_kind` and `rsp_data`. -/
theorem test_response_ports : (rspKind .done, rspData .done) = (0, 0) ∧
    (rspKind (.data 7), rspData (.data 7)) = (1, 7) ∧ (rspKind (.error 3), rspData (.error 3)) = (2, 3) := by decide
/-- R80: the syntax's examples. -/
theorem test_syntax : asmText (.loadj256 1 2 3 4) = "loadj256 1, 2, 3, 4" ∧ asmText .rdmax256 = "rdmax256" := by
  decide +kernel
/-- R81: `ctor128 1, 2` then `discard128 2`, as command words. -/
theorem test_pseudo_commands : (assemble [.pseudo (.ctorWords128 1 2), .pseudo (.discard .g128 2), .word 0x1F]).map
    (·.word) = [0x83, 0x80, 0x80, 0x1F] := by decide

/-! ## Witnesses: the hypotheses of the obligations can be met -/

/-- A block after reset to which the host offers `c`. -/
def offered (c : Command) : State := offerCommand c State.reset

/-- Input ports at rest, but for the given ones. -/
def ports (rst cmdValid : Bool) (cmd : Command) (rspReady entAck entFail : Bool) : PortIn :=
  ⟨rst, cmdValid, cmd, rspReady, entAck, entFail, 9⟩

/-- Input ports at rest. -/
def quiet : PortIn := ports false false (.plain 0) false false false

theorem witness_CommandMapDecodes : ∃ (c : Command) (i : Instr), decode c = .ok i := ⟨.plain 0x89, .rdmax128, by decide⟩

theorem witness_IllegalWordsAreTheOther236 :
    ((Command.plain 0x10).word.extractLsb' 4 3 ≠ 0#3 ∧ (Command.plain 0x70).word.extractLsb' 4 3 ≠ 0#3) ∧
    ((Command.plain 0x0A).word.extractLsb' 4 3 = 0#3 ∧ 0xA ≤ ((Command.plain 0x0A).word.extractLsb' 0 4).toNat) ∧
    ((Command.plain 0x8F).word.extractLsb' 4 3 = 0#3 ∧ 0xA ≤ ((Command.plain 0x8F).word.extractLsb' 0 4).toNat) ∧
    ((Command.plain 0x89).word.extractLsb' 4 3 = 0#3 ∧ ((Command.plain 0x89).word.extractLsb' 0 4).toNat < 0xA) := by
  decide

theorem witness_DecodeReadsOnlyTheListedOperands :
    let c : Command := ⟨0x83, 1, 2, 3, 4⟩
    let c' : Command := ⟨0x83, 1, 2, 5, 6⟩
    c ≠ c' ∧ c.word = c'.word ∧
    (c.word ∈ ([0x03, 0x04, 0x05, 0x06, 0x83, 0x84, 0x85, 0x86] : List CmdWord) → c.din0 = c'.din0) ∧
    (c.word ∈ ([0x03, 0x04, 0x83, 0x84] : List CmdWord) → c.din1 = c'.din1) ∧
    (c.word ∈ ([0x03, 0x04] : List CmdWord) → c.din2 = c'.din2 ∧ c.din3 = c'.din3) := by decide

theorem witness_StepRunsTheDecodedCommand : (offered (word 0x04)).phase = .idle ∧
    (offered (word 0x04)).hostIn = .command (word 0x04) :: [] ∧ decode (word 0x04) = .ok (.load256 11 12 13 14) := by
  decide

theorem witness_IllegalCommandOnlyRecordsTheError : (offered (word 0x0A)).phase = .idle ∧
    (offered (word 0x0A)).hostIn = .command (word 0x0A) :: [] ∧ 0xA ≤ ((word 0x0A).word.extractLsb' 0 4).toNat ∧
    (word 0x10).word.extractLsb' 4 3 ≠ 0#3 := by decide

theorem witness_EveryCommandGetsOneResponse : (offered (word 0xFF)).phase = .idle ∧
    (offered (word 0xFF)).hostIn = .command (word 0xFF) :: [] := by decide

theorem witness_CommandStreamRunsInOrder :
    let s : State := { State.reset with hostIn := [.command (encode (.load128 1 2)), .command (encode .next128), .reset] }
    s.phase = .idle ∧ s.hostIn = [Instr.load128 1 2, .next128].map (fun i => .command (encode i)) ++ [.reset] := by decide

theorem witness_RotlMovesEveryBit : ((0 < 1 ∧ 1 < 64) ∧ 0 < 64) ∧ ((0 < 63 ∧ 63 < 64) ∧ 63 < 64) := by decide

theorem witness_JumpsKeepNonZeroStates :
    (⟨1, 2, 3, 4⟩ : Words256) ≠ ⟨0, 0, 0, 0⟩ ∧ (⟨0, 1⟩ : Words128) ≠ ⟨0, 0⟩ := by decide

theorem witness_AllZeroIsTheFixedPoint : (loaded ⟨0, 0, 0, 0⟩ ⟨0, 0⟩).seeded256 = true ∧
    (loaded ⟨0, 0, 0, 0⟩ ⟨0, 0⟩).s256 = ⟨0, 0, 0, 0⟩ ∧ (loaded ⟨0, 0, 0, 0⟩ ⟨0, 0⟩).seeded128 = true ∧
    (loaded ⟨0, 0, 0, 0⟩ ⟨0, 0⟩).s128 = ⟨0, 0⟩ := by decide

theorem witness_Next256Result : (loaded ⟨1, 2, 3, 4⟩ ⟨0, 0⟩).seeded256 = true ∧
    (loaded ⟨1, 2, 3, 4⟩ ⟨0, 0⟩).s256 = ⟨1, 2, 3, 4⟩ ∧ State.reset.seeded256 = false ∧
    (loaded ⟨0, 0, 0, 0⟩ ⟨0, 0⟩).s256 = ⟨0, 0, 0, 0⟩ ∧
    (loaded ⟨0x7, 0x0, 0x40002, 0xc00000000000⟩ ⟨0, 0⟩).s256 = ⟨0x7, 0x0, 0x40002, 0xc00000000000⟩ := by decide

theorem witness_Next128Result : (loaded ⟨0, 0, 0, 0⟩ ⟨1, 2⟩).seeded128 = true ∧
    (loaded ⟨0, 0, 0, 0⟩ ⟨1, 2⟩).s128 = ⟨1, 2⟩ ∧ State.reset.seeded128 = false ∧
    (loaded ⟨0, 0, 0, 0⟩ ⟨0, 0⟩).s128 = ⟨0, 0⟩ ∧ (loaded ⟨0, 0, 0, 0⟩ ⟨0, 1⟩).s128 = ⟨0, 1⟩ ∧ (1 : Word) ≠ 0 := by decide

theorem witness_JumpsOfG256Result : (loaded ⟨1, 2, 3, 4⟩ ⟨0, 0⟩).seeded256 = true ∧
    (loaded ⟨1, 2, 3, 4⟩ ⟨0, 0⟩).s256 = ⟨1, 2, 3, 4⟩ ∧ State.reset.seeded256 = false := by decide

theorem witness_JumpsOfG128Result : (loaded ⟨1, 2, 3, 4⟩ ⟨1, 2⟩).seeded128 = true ∧
    (loaded ⟨1, 2, 3, 4⟩ ⟨1, 2⟩).s128 = ⟨1, 2⟩ ∧ State.reset.seeded128 = false := by decide

theorem witness_Loadj256Result :
    let w : Words256 := ⟨0x8c7a153956b5f3d1, 0x701f1a713401d85e, 0x6527f66a65469085, 0x8386b786c4408050⟩
    (loaded w ⟨0, 0⟩).seeded256 = true ∧ (loaded w ⟨0, 0⟩).s256 = w := by decide

theorem witness_Loadj128Result :
    let x : Words128 := ⟨0x66fbd4be1df0a7b5, 0x830c3ddbb4aa3172⟩
    (loaded ⟨0, 0, 0, 0⟩ x).seeded128 = true ∧ (loaded ⟨0, 0, 0, 0⟩ x).s128 = x := by decide

theorem witness_Seedm256Result : ∃ s0 s1 s2 : Word, s1 = s0 ^^^ 0xf0ff00dd00f0f00c ∧
    s2 = ((s1 <<< 45) ||| (s1 >>> 19)) ^^^ 0xffff00f0dd0f00f7 := ⟨42, _, _, rfl, rfl⟩

theorem witness_Seede256Result_words : drawAnswer (provided [.ok 5, .ok 6, .ok 7, .ok 8]) 0 = .ok 5 ∧
    drawAnswer (provided [.ok 5, .ok 6, .ok 7, .ok 8]) 1 = .ok 6 ∧
    drawAnswer (provided [.ok 5, .ok 6, .ok 7, .ok 8]) 2 = .ok 7 ∧
    drawAnswer (provided [.ok 5, .ok 6, .ok 7, .ok 8]) 3 = .ok 8 := by decide

theorem witness_Seede256Result_fail_first : drawAnswer (provided [.fail]) 0 = .fail ∧
    ∀ j < 0, ∃ w, drawAnswer (provided [.fail]) j = .ok w := ⟨by decide, by omega⟩

theorem witness_Seede256Result_fail_last : drawAnswer (provided [.ok 1, .ok 1, .ok 1, .fail]) 3 = .fail ∧
    ∀ j < 3, ∃ w, drawAnswer (provided [.ok 1, .ok 1, .ok 1, .fail]) j = .ok w :=
  ⟨by decide, fun j hj => ⟨1, by interval_cases j <;> decide⟩⟩

theorem witness_Seede128Result_words : drawAnswer (provided [.ok 1, .ok 2]) 0 = .ok 1 ∧
    drawAnswer (provided [.ok 1, .ok 2]) 1 = .ok 2 := by decide

theorem witness_Seede128Result_fail_first : drawAnswer (provided [.fail]) 0 = .fail ∧
    ∀ j < 0, ∃ w, drawAnswer (provided [.fail]) j = .ok w := ⟨by decide, by omega⟩

theorem witness_Seede128Result_fail_last : drawAnswer (provided [.ok 1, .fail]) 1 = .fail ∧
    ∀ j < 1, ∃ w, drawAnswer (provided [.ok 1, .fail]) j = .ok w :=
  ⟨by decide, fun j hj => ⟨1, by interval_cases j; decide⟩⟩

theorem witness_RaiseRecordsTheFirstError : State.reset.err = false ∧ (afterWord 0x0A).err = true := by decide

theorem witness_UnseededIsRaisedExactlyBySteppingAnUnseededEngine : needsSeed .next256 = true ∧
    engineSeeded Instr.next256.engine State.reset = false ∧ needsSeed .ljump128 = true ∧
    engineSeeded Instr.ljump128.engine State.reset = false ∧
    (∃ t, exec .next256 State.reset = .next t ∧ t.phase = .responding (.error 2)) := by
  exact ⟨by decide, by decide, by decide, by decide, _, rfl, by decide⟩

/-- One command for each error code. -/
theorem witness_ErrorsArePrecise :
    (∃ t, step (offered (word 0x0A)) = .next t ∧ t.taken = .error 1 :: (offered (word 0x0A)).taken) ∧
    (∃ t, step (offered (word 0x00)) = .next t ∧ t.taken = .error 2 :: (offered (word 0x00)).taken) ∧
    (∃ t, step { offered (word 0x07) with entIn := [.fail] } = .next t ∧ t.taken = [.error 3]) ∧
    (∃ t, step { offered (word 0x87) with entIn := [.fail] } = .next t ∧ t.taken = [.error 3]) :=
  ⟨⟨_, rfl, by decide⟩, ⟨_, rfl, by decide⟩, ⟨_, rfl, by decide⟩, ⟨_, rfl, by decide⟩⟩

theorem witness_ErrorRecordIsSticky :
    (∃ t, (offerCommand (word 0x00) (afterWord 0x0A)).err = true ∧
      step (offerCommand (word 0x00) (afterWord 0x0A)) = .next t ∧
      (offerCommand (word 0x00) (afterWord 0x0A)).hostIn.head? ≠ some .reset) ∧
    (afterWord 0x0A).err = true ∧ quiet.rst = false := ⟨⟨_, by decide, rfl, by decide⟩, by decide, by decide⟩

/-- A step of a transaction, and one of a block with a command part-way. -/
theorem witness_EveryStepKeepsTheInvariant :
    ((offered (word 0x00)).Inv ∧ ∃ t, step (offered (word 0x00)) = .next t) ∧
    (({ State.reset with phase := .drawing256 true [1, 2, 3], entIn := [.ok 4] } : State).Inv ∧
      ∃ t, step { State.reset with phase := .drawing256 true [1, 2, 3], entIn := [.ok 4] } = .next t) :=
  ⟨⟨by decide, _, rfl⟩, ⟨by decide, _, rfl⟩⟩

theorem witness_EveryClockEdgeKeepsTheInvariant :
    ({ State.reset with phase := .jumping128 true .short 127 zero128 } : State).Inv := by decide

theorem witness_CommandsLeaveTheOtherEngineAlone :
    (Instr.next256.engine = .g256 ∧ ∃ t, exec .next256 (loaded ⟨1, 2, 3, 4⟩ ⟨1, 2⟩) = .next t) ∧
    (Instr.next128.engine = .g128 ∧ ∃ t, exec .next128 (loaded ⟨1, 2, 3, 4⟩ ⟨1, 2⟩) = .next t) :=
  ⟨⟨by decide, _, rfl⟩, ⟨by decide, _, rfl⟩⟩

theorem witness_CommandsDoNotReadTheOtherEngine :
    (Instr.next256.engine = .g256 ∧ ∃ t, exec .next256 (loaded ⟨1, 2, 3, 4⟩ ⟨1, 2⟩) = .next t) ∧
    (Instr.next128.engine = .g128 ∧ ∃ t, exec .next128 (loaded ⟨1, 2, 3, 4⟩ ⟨1, 2⟩) = .next t) :=
  witness_CommandsLeaveTheOtherEngineAlone

/-- Deterministic loads in two blocks with different providers, histories and words; and a `SEEDE256` that makes the same
four draws of providers that hold different answers after them, and one that fails. -/
theorem witness_G256OutputsAreReproducible :
    (isLoad (.loadj256 1 2 3 4) = true ∧
      (∀ i ∈ ([.loadj256 1 2 3 4, .next256, .jump256, .next256] : List Instr), i.engine = .g256) ∧
      drawsOf [.loadj256 1 2 3 4, .next256] (provided [.ok 1]) =
        drawsOf [.loadj256 1 2 3 4, .next256] { loaded ⟨1, 2, 3, 4⟩ ⟨1, 2⟩ with free := 7 }) ∧
    (isLoad .seede256 = true ∧ drawsOf [.seede256, .next256] (provided [.ok 5, .ok 6, .ok 7, .ok 8, .ok 9]) =
      drawsOf [.seede256, .next256] (provided [.ok 5, .ok 6, .ok 7, .ok 8, .fail])) ∧
    drawsOf [.seede256] (provided [.ok 5, .fail, .ok 7]) = [.ok 5, .fail] := by decide

theorem witness_G128OutputsAreReproducible :
    (isLoad (.seedc128 42) = true ∧ (∀ i ∈ ([.seedc128 42, .next128, .ljump128] : List Instr), i.engine = .g128) ∧
      drawsOf [.seedc128 42, .next128] (provided [.ok 1]) =
        drawsOf [.seedc128 42, .next128] { loaded ⟨1, 2, 3, 4⟩ ⟨1, 2⟩ with free := 7 }) ∧
    (isLoad .seede128 = true ∧ (∀ i ∈ ([.seede128, .next128] : List Instr), i.engine = .g128) ∧
      drawsOf [.seede128, .next128] (provided [.ok 5, .fail]) =
        drawsOf [.seede128, .next128] (provided [.ok 5, .fail, .ok 7])) := by decide

theorem witness_ResetWinsOverTakingAResponse : (ports true false (.plain 0) true false false).rst = true ∧
    (ports true false (.plain 0) true false false).rspReady = true ∧
    (after .rdmax256 State.reset).phase = .responding (.data 0xffffffffffffffff) := by decide

theorem witness_ResetClearsTheBlock : (ports true true (word 0x00) true true true).rst = true ∧
    Machine.offered (after .rdmin256 State.reset) = some (.data 0) ∧ (ports true true (word 0x00) false true true).rspReady = false ∧
    Machine.offered State.reset = none ∧
    ({ State.reset with hostIn := [.reset, .command (word 0x00)] } : State).phase = .idle ∧
    ({ State.reset with hostIn := [.reset, .command (word 0x00)] } : State).hostIn = .reset :: [.command (word 0x00)] := by
  decide

theorem witness_BusyBlockIgnoresTheCommandPort : (after .rdmin256 State.reset).phase ≠ .idle ∧
    State.reset.phase = .idle ∧ quiet.rst = false ∧ quiet.cmdValid = false := by decide

/-- Each kind of response on offer, with the host ready and not. -/
theorem witness_ResponseIsHeldUntilTaken : quiet.rst = false ∧
    (after (.load128 1 2) State.reset).phase = .responding .done ∧
    (after .rdmax256 State.reset).phase = .responding (.data 0xffffffffffffffff) ∧
    (after .next128 State.reset).phase = .responding (.error 2) ∧
    (portOut false (after .next128 State.reset)).rsp = some (2, 2) ∧
    (portOut false (after .rdmin128 State.reset)).rspValid = true ∧ quiet.rspReady = false ∧
    (ports false false (.plain 0) true false false).rspReady = true := by decide

/-- Both commands raise `ent_req`; the states between two draws; a provider that does not answer; and one that fails. -/
theorem witness_EntropyHandshake :
    entReq (clockEdge (ports false true (word 0x07) false false false) State.reset) = true ∧
    entReq (clockEdge (ports false true (word 0x87) false false false) State.reset) = true ∧
    State.reset.phase = .idle ∧ (ports false true (word 0x07) false false false).rst = false ∧
    (ports false true (word 0x07) false false false).cmd.word = 0x07 ∧
    (ports false true (word 0x87) false false false).cmd.word = 0x87 ∧
    entReq State.reset = false ∧
    (({ State.reset with phase := .drawing256 false [1] } : State).Inv ∧
      entReq { State.reset with phase := .drawing256 false [1] } = false ∧
      entReq (clockEdge quiet { State.reset with phase := .drawing256 false [1] }) = true) ∧
    (({ State.reset with phase := .drawing128 false [1] } : State).Inv ∧
      entReq { State.reset with phase := .drawing128 false [1] } = false ∧
      entReq (clockEdge quiet { State.reset with phase := .drawing128 false [1] }) = true) ∧
    entReq { State.reset with phase := .drawing256 true [] } = true ∧ quiet.rst = false ∧ quiet.entAck = false ∧
    (ports false false (.plain 0) false true true).entAck = true ∧
    (ports false false (.plain 0) false true true).entFail = true ∧
    (ports false false (.plain 0) false true false).entFail = false ∧
    (({ State.reset with phase := .drawing256 true [1, 2, 3] } : State).Inv ∧ [1, 2, 3].length = 3) ∧
    (({ State.reset with phase := .drawing128 true [1] } : State).Inv ∧ [1].length = 1) ∧
    ([1, 2] : List Word).length < 3 ∧ ([] : List Word).length < 1 := by decide

theorem witness_NoPartOfACommandShows : (offered (word 0x83)).phase = .idle ∧
    (offered (word 0x83)).hostIn = .command (word 0x83) :: [] ∧
    (∀ i, decode (word 0x83) = .ok i → 130 = responseCycles i (offered (word 0x83))) ∧
    (∀ e, decode (word 0x83) = .error e → 130 = 1) ∧ 1 ≤ 1 ∧ 129 < 130 := by
  have legal : decode (word 0x83) = .ok (.loadj128 11 12) := by decide
  refine ⟨rfl, rfl, fun i h => ?_, fun e h => ?_, by omega, by omega⟩ <;> rw [legal] at h <;> cases h
  rfl

theorem witness_NextCommandsStepOneByOne : (loaded ⟨1, 2, 3, 4⟩ ⟨1, 2⟩).seeded256 = true ∧
    (loaded ⟨1, 2, 3, 4⟩ ⟨1, 2⟩).seeded128 = true := by decide

/-- A jump at its start, with no edge, with the last count before its end, and with all its edges. -/
theorem witness_JumpMachineRunsOneBitAnEdge :
    ((loaded ⟨1, 2, 3, 4⟩ ⟨1, 2⟩).phase = .idle ∧ (ports false true (word 0x01) false false false).rst = false ∧
      (ports false true (word 0x01) false false false).cmdValid = true ∧
      (ports false true (word 0x82) false false false).cmd.word = 0x82 ∧ (loaded ⟨1, 2, 3, 4⟩ ⟨1, 2⟩).seeded256 = true) ∧
    (quiet.rst = false ∧ ({ State.reset with phase := .loading256 ⟨1, 2, 3, 4⟩ } : State).phase =
      .loading256 ⟨1, 2, 3, 4⟩) ∧
    ({ State.reset with phase := .jumping256 false .long 0 zero256 } : State).phase = .jumping256 false .long 0 zero256 ∧
    ({ State.reset with phase := .jumping128 true .short 0 zero128 } : State).phase = .jumping128 true .short 0 zero128 ∧
    (∀ n, ∀ p ∈ List.replicate n quiet, p.rst = false) ∧ ([] : List PortIn).length = (0 : Fin 256).val ∧
    (List.replicate 255 quiet).length = (255 : Fin 256).val ∧ (List.replicate 256 quiet).length = 256 ∧
    (List.replicate 127 quiet).length = (127 : Fin 128).val ∧ (List.replicate 128 quiet).length = 128 := by
  refine ⟨by decide, by decide, rfl, rfl, fun n p hp => ?_, rfl, List.length_replicate, List.length_replicate, List.length_replicate,
    List.length_replicate⟩
  rw [(List.mem_replicate.mp hp).2]; rfl

/-- A legal command with its count, and an illegal word. -/
theorem witness_ClockEdgesRefineTheTransaction :
    ((offered (word 0x03)).phase = .idle ∧ (offered (word 0x03)).hostIn = .command (word 0x03) :: [] ∧
      (∃ t, step (offered (word 0x03)) = .next t) ∧
      (∀ i, decode (word 0x03) = .ok i → 258 = responseCycles i (offered (word 0x03))) ∧
      ∀ e, decode (word 0x03) = .error e → 258 = 1) ∧
    ((∃ t, step (offered (word 0x0A)) = .next t) ∧
      (∀ i, decode (word 0x0A) = .ok i → 1 = responseCycles i (offered (word 0x0A))) ∧
      ∀ e, decode (word 0x0A) = .error e → 1 = 1) := by
  have legal : decode (word 0x03) = .ok (.loadj256 11 12 13 14) := by decide
  have illegal : decode (word 0x0A) = .error .operationNotDefined := by decide
  refine ⟨⟨rfl, rfl, ⟨_, rfl⟩, fun i h => ?_, fun e h => ?_⟩, ⟨_, rfl⟩, fun i h => ?_, fun e _ => rfl⟩
  · rw [legal] at h; cases h; rfl
  · rw [legal] at h; cases h
  · rw [illegal] at h; cases h

end Sys2Proof.Tests
end

/-! PROOFS. The clock edges of one command against its step (O51): `JUMPALG` iteration by iteration and the jump machine
that does one iteration an edge; runs of edges up to a response; what the edges of each command bring. -/

namespace Sys2Proof.Machine

section Iterations
variable {W : Type} (xor : W → W → W) (zero : W) (advance : W → W)

theorem xorOfSteps_succ (table : List Word) (s : W) (n : Nat) : xorOfSteps xor zero advance table s (n + 1) =
    if tableBit table n then xor (xorOfSteps xor zero advance table s n) (advance^[n] s)
    else xorOfSteps xor zero advance table s n := rfl

/-- The accumulators and the state of `JUMPALG` after the iterations of bits 0 to `n - 1` (R110). -/
def afterIterations (table : List Word) (s : W) (n : Nat) : W × W :=
  (xorOfSteps xor zero advance table s n, advance^[n] s)

theorem jumpIteration_afterIterations (table : List Word) (s : W) (n : Nat) :
    jumpIteration xor advance (tableBit table n) (afterIterations xor zero advance table s n) =
      afterIterations xor zero advance table s (n + 1) := by
  simp [jumpIteration, afterIterations, xorOfSteps_succ, Function.iterate_succ_apply']

/-- Bit `64 k + b` of a table is bit `b` of the word after its first `k`. -/
theorem tableBit_append_cons (before rest : List Word) (t : Word) {b : Nat} (hb : b < 64) :
    tableBit (before ++ t :: rest) (64 * before.length + b) = t.getLsbD b := by
  have word : (64 * before.length + b) / 64 = before.length := by omega
  have bit : (64 * before.length + b) % 64 = b := by omega
  simp [tableBit, word, bit]

/-- The inner loop of R110 on one table word does that word's 64 iterations. -/
theorem jumpWord_afterIterations (before rest : List Word) (t : Word) (s : W) :
    jumpWord xor advance (afterIterations xor zero advance (before ++ t :: rest) s (64 * before.length)) t =
      afterIterations xor zero advance (before ++ t :: rest) s (64 * before.length + 64) := by
  have bits (n : Nat) (hn : n ≤ 64) : (List.range n).foldl (fun q b => jumpIteration xor advance (t.getLsbD b) q)
      (afterIterations xor zero advance (before ++ t :: rest) s (64 * before.length)) =
      afterIterations xor zero advance (before ++ t :: rest) s (64 * before.length + n) := by
    induction n with
    | zero => rfl
    | succ n ih =>
      rw [List.range_succ, List.foldl_append, ih (by omega), List.foldl_cons, List.foldl_nil,
        ← tableBit_append_cons before rest t (by omega : n < 64), jumpIteration_afterIterations]
      rfl
  exact bits 64 le_rfl

/-- The outer loop of R110 on the table words `rest` does their iterations. -/
theorem foldl_jumpWord_afterIterations (before rest : List Word) (s : W) :
    rest.foldl (jumpWord xor advance) (afterIterations xor zero advance (before ++ rest) s (64 * before.length)) =
      afterIterations xor zero advance (before ++ rest) s (64 * (before ++ rest).length) := by
  induction rest generalizing before with
  | nil => simp
  | cons t rest ih =>
    have next := ih (before ++ [t])
    simp only [List.append_assoc, List.singleton_append, List.length_append, List.length_singleton, Nat.mul_add,
      Nat.mul_one] at next
    rw [List.foldl_cons, jumpWord_afterIterations, next]
    simp [Nat.mul_add]

/-- `JUMPALG` gives the XOR of the states at the table's set bits (R110, R112). -/
theorem jumpAlg_eq_xorOfSteps (table : List Word) (s : W) :
    jumpAlg xor zero advance s table = xorOfSteps xor zero advance table s (64 * table.length) :=
  congrArg Prod.fst (foldl_jumpWord_afterIterations xor zero advance [] table s)

end Iterations

theorem jump256_eq_xorOfSteps (s : Words256) (table : List Word) :
    jump256 s table = xorOfSteps xor256 zero256 advance256 table s (64 * table.length) := by
  rw [jump256, jumpAlg_eq_xorOfSteps]

theorem jump128_eq_xorOfSteps (s : Words128) (table : List Word) :
    jump128 s table = xorOfSteps xor128 zero128 advance128 table s (64 * table.length) := by
  rw [jump128, jumpAlg_eq_xorOfSteps]

@[simp] theorem table256_length (tab : JumpKind) : (table256 tab).length = 4 := by cases tab <;> rfl
@[simp] theorem table128_length (tab : JumpKind) : (table128 tab).length = 2 := by cases tab <;> rfl

section JumpMachine
variable (load : Bool) (s : State)

/-- The block `s` in a G256 jump of the words `w`, with the iterations of bits 0 to `m - 1` done (R111). -/
def inJump256 (tab : JumpKind) (w : Words256) (m : Fin 256) : State := { s with
  s256 := advance256^[m.val] w
  phase := .jumping256 load tab m (xorOfSteps xor256 zero256 advance256 (table256 tab) w m.val) }

/-- The block `s` in a G128 jump of the words `w`, with the iterations of bits 0 to `m - 1` done. -/
def inJump128 (tab : JumpKind) (w : Words128) (m : Fin 128) : State := { s with
  s128 := advance128^[m.val] w
  phase := .jumping128 load tab m (xorOfSteps xor128 zero128 advance128 (table128 tab) w m.val) }

variable (tab : JumpKind) (w : Words256) (v : Words128)

/-- An iteration before the last leaves the jump with one more done. -/
theorem jumpCycle256_inJump256 {m : Fin 256} (more : m.val + 1 < 256) : jumpCycle256 load tab m
    (xorOfSteps xor256 zero256 advance256 (table256 tab) w m.val) (inJump256 load s tab w m) =
    inJump256 load s tab w ⟨m.val + 1, more⟩ := by
  obtain ⟨_, h⟩ | ⟨last, -⟩ := jumpCycle256_cases load tab m
    (xorOfSteps xor256 zero256 advance256 (table256 tab) w m.val) (inJump256 load s tab w m)
  · rw [h]; simp [inJump256, Function.iterate_succ_apply', xorOfSteps_succ]
  · omega

theorem jumpCycle128_inJump128 {m : Fin 128} (more : m.val + 1 < 128) : jumpCycle128 load tab m
    (xorOfSteps xor128 zero128 advance128 (table128 tab) v m.val) (inJump128 load s tab v m) =
    inJump128 load s tab v ⟨m.val + 1, more⟩ := by
  obtain ⟨_, h⟩ | ⟨last, -⟩ := jumpCycle128_cases load tab m
    (xorOfSteps xor128 zero128 advance128 (table128 tab) v m.val) (inJump128 load s tab v m)
  · rw [h]; simp [inJump128, Function.iterate_succ_apply', xorOfSteps_succ]
  · omega

/-- The last iteration leaves the jump of the words that the machine started from. -/
theorem jumpCycle256_last {m : Fin 256} (last : m.val = 255) : jumpCycle256 load tab m
    (xorOfSteps xor256 zero256 advance256 (table256 tab) w m.val) (inJump256 load s tab w m) =
    respond .done { s with s256 := jump256 w (table256 tab), seeded256 := s.seeded256 || load } := by
  obtain ⟨more, -⟩ | ⟨-, h⟩ := jumpCycle256_cases load tab m
    (xorOfSteps xor256 zero256 advance256 (table256 tab) w m.val) (inJump256 load s tab w m)
  · omega
  · have bits : 64 * 4 = m.val + 1 := by omega
    rw [h, jump256_eq_xorOfSteps, table256_length, bits, xorOfSteps_succ]; rfl

theorem jumpCycle128_last {m : Fin 128} (last : m.val = 127) : jumpCycle128 load tab m
    (xorOfSteps xor128 zero128 advance128 (table128 tab) v m.val) (inJump128 load s tab v m) =
    respond .done { s with s128 := jump128 v (table128 tab), seeded128 := s.seeded128 || load } := by
  obtain ⟨more, -⟩ | ⟨-, h⟩ := jumpCycle128_cases load tab m
    (xorOfSteps xor128 zero128 advance128 (table128 tab) v m.val) (inJump128 load s tab v m)
  · omega
  · have bits : 64 * 2 = m.val + 1 := by omega
    rw [h, jump128_eq_xorOfSteps, table128_length, bits, xorOfSteps_succ]; rfl

end JumpMachine

/-- From `s`, `n` edges bring the block to `u`, where a response is on offer; in every state before, `s` among them, a
command is in the block and no response is on offer. -/
inductive RespondsAfter : Nat → State → State → Prop
  | now {u : State} {r : Response} (responding : u.phase = .responding r) : RespondsAfter 0 u u
  | edge {n : Nat} {s u : State} (inBlock : busy s = true) (silent : offered s = none)
      (later : RespondsAfter n (systemEdge s) u) : RespondsAfter (n + 1) s u

namespace RespondsAfter
variable {n m : Nat} {s u : State}

theorem run (h : RespondsAfter n s u) : systemEdge^[n] s = u := by
  induction h with
  | now => rfl
  | edge _ _ _ ih => exact ih

theorem responds (h : RespondsAfter n s u) : ∃ r, u.phase = .responding r := by
  induction h with
  | now responding => exact ⟨_, responding⟩
  | edge _ _ _ ih => exact ih

theorem busy_until (h : RespondsAfter n s u) (hm : m ≤ n) : busy (systemEdge^[m] s) = true := by
  induction h generalizing m with
  | now responding =>
    obtain rfl : m = 0 := by omega
    simp [busy, responding]
  | edge inBlock _ _ ih =>
    cases m with
    | zero => exact inBlock
    | succ m => exact ih (by omega)

theorem silent_before (h : RespondsAfter n s u) (hm : m < n) : offered (systemEdge^[m] s) = none := by
  induction h generalizing m with
  | now => omega
  | edge _ silent _ ih =>
    cases m with
    | zero => exact silent
    | succ m => exact ih (by omega)

/-- A chain of busy, silent states, each an edge after the one before, whose last is one edge before the response. -/
theorem of_chain {k : Nat} (f : Fin (k + 1) → State) (inBlock : ∀ i, busy (f i) = true)
    (silent : ∀ i, offered (f i) = none) (next : ∀ i : Fin k, systemEdge (f i.castSucc) = f i.succ)
    (last : RespondsAfter 0 (systemEdge (f (Fin.last k))) u) : RespondsAfter (k + 1) (f 0) u := by
  have rest (i : Fin (k + 1)) : RespondsAfter (k - i.val + 1) (f i) u := by
    induction i using Fin.reverseInduction with
    | last => simpa using RespondsAfter.edge (inBlock _) (silent _) last
    | cast i ih =>
      have count : k - i.castSucc.val = k - i.succ.val + 1 := by simp; omega
      rw [count]
      exact .edge (inBlock _) (silent _) (next i ▸ ih)
  exact rest 0

end RespondsAfter

section Jump
variable (load : Bool) (tab : JumpKind) (s : State)

theorem jumping256_respondsAfter (w : Words256) :
    RespondsAfter 256 { s with s256 := w, phase := .jumping256 load tab 0 zero256 }
      (respond .done { s with s256 := jump256 w (table256 tab), seeded256 := s.seeded256 || load }) := by
  refine RespondsAfter.of_chain (inJump256 load s tab w) (fun _ => rfl) (fun _ => rfl) (fun i => ?_) ?_
  · rw [systemEdge_jumping256 rfl]; exact jumpCycle256_inJump256 load s tab w (Nat.succ_lt_succ i.isLt)
  · rw [systemEdge_jumping256 rfl, jumpCycle256_last load s tab w (Fin.val_last _)]; exact .now rfl

theorem jumping128_respondsAfter (v : Words128) :
    RespondsAfter 128 { s with s128 := v, phase := .jumping128 load tab 0 zero128 }
      (respond .done { s with s128 := jump128 v (table128 tab), seeded128 := s.seeded128 || load }) := by
  refine RespondsAfter.of_chain (inJump128 load s tab v) (fun _ => rfl) (fun _ => rfl) (fun i => ?_) ?_
  · rw [systemEdge_jumping128 rfl]; exact jumpCycle128_inJump128 load s tab v (Nat.succ_lt_succ i.isLt)
  · rw [systemEdge_jumping128 rfl, jumpCycle128_last load s tab v (Fin.val_last _)]; exact .now rfl

/-- The load cycle of a load command that jumps, then its jump, which sets the seeded bit (R23). -/
theorem loading256_respondsAfter (w : Words256) : RespondsAfter 257 { s with phase := .loading256 w }
    (respond .done (seedWith256 (jump256 w jumpTable256) s)) := by
  refine .edge rfl rfl ?_
  rw [systemEdge_loading256 rfl]
  simpa [seedWith256, table256] using jumping256_respondsAfter true .short s w

theorem loading128_respondsAfter (v : Words128) : RespondsAfter 129 { s with phase := .loading128 v }
    (respond .done (seedWith128 (jump128 v jumpTable128) s)) := by
  refine .edge rfl rfl ?_
  rw [systemEdge_loading128 rfl]
  simpa [seedWith128, table128] using jumping128_respondsAfter true .short s v

end Jump

section DrawCounts
variable {p : Provider} (k : Nat)

theorem drawsMade_of_ok {w : Word} (h : (entropyDraw p).1 = .ok w) :
    drawsMade (k + 1) p = drawsMade k (entropyDraw p).2 + 1 := by
  rcases d : entropyDraw p with ⟨_ | _, q⟩ <;> simp_all [drawsMade]

theorem drawsMade_of_fail (h : (entropyDraw p).1 = .fail) : drawsMade (k + 1) p = 1 := by
  rcases d : entropyDraw p with ⟨_ | _, q⟩ <;> simp_all [drawsMade]

theorem drawsMade_succ_pos (p : Provider) : 0 < drawsMade (k + 1) p := by
  unfold drawsMade; split <;> omega

/-- A word drawn, with more to draw, takes two edges before the next answer is due (log entry 12). -/
theorem handshakeEdges_of_ok {w : Word} (h : (entropyDraw p).1 = .ok w) :
    2 * drawsMade (k + 2) p - 1 = 2 * drawsMade (k + 1) (entropyDraw p).2 - 1 + 2 := by
  have made := drawsMade_succ_pos k (entropyDraw p).2
  rw [drawsMade_of_ok _ h]; omega

end DrawCounts

section Draws
variable (s : State)

/-- An error entry does not depend on the phase it ends. -/
theorem raise_phase_irrelevant (e : ErrorCause) (c : CmdWord) (ph : Phase) :
    raise e c { s with phase := ph } = raise e c s := by simp only [raise_explicit]

/-- What a `SEEDE256` that drew `o` leaves: the words, or the error of a failed draw (R155, R236). -/
def drew256 (o : Option Words256 × Provider) : State :=
  match o with
  | (some w, p) => respond .done (seedWith256 w (setProvider p s))
  | (none, p) => entropyFail256 (setProvider p s)

/-- What a `SEEDE128` that drew `o` leaves (R205, R236). -/
def drew128 (o : Option Words128 × Provider) : State :=
  match o with
  | (some w, p) => respond .done (seedWith128 w (setProvider p s))
  | (none, p) => entropyFail128 (setProvider p s)

theorem execSeede256_eq : execSeede256 s = .next (drew256 s (draw256 (provider s))) := by
  rcases h : draw256 (provider s) with ⟨_ | w, p⟩
  · exact execSeede256_failed h
  · exact execSeede256_drawn h

theorem execSeede128_eq : execSeede128 s = .next (drew128 s (draw128 (provider s))) := by
  rcases h : draw128 (provider s) with ⟨_ | w, p⟩
  · exact execSeede128_failed h
  · exact execSeede128_drawn h

/-- The block `s` with `ent_req` raised for `SEEDE256`, the words `got` drawn and the provider at `p`. -/
def inDraw256 (got : List Word) (p : Provider) : State := { setProvider p s with phase := .drawing256 true got }

/-- The block `s` with `ent_req` raised for `SEEDE128`, the words `got` drawn and the provider at `p`. -/
def inDraw128 (got : List Word) (p : Provider) : State := { setProvider p s with phase := .drawing128 true got }

@[simp] theorem inDraw256_provider (got : List Word) (p : Provider) : provider (inDraw256 s got p) = p := rfl

/-- A failed draw is the response's edge. -/
theorem inDraw256_fail {p : Provider} (k : Nat) (got : List Word) (h : (entropyDraw p).1 = .fail) :
    RespondsAfter (2 * drawsMade (k + 1) p - 1) (inDraw256 s got p) (drew256 s (none, (entropyDraw p).2)) := by
  have answered : systemEdge (inDraw256 s got p) = entropyFail256 (setProvider (entropyDraw p).2 s) := by
    rw [systemEdge_drawing256 rfl, inDraw256_provider, h]
    exact raise_phase_irrelevant (unseed256 (setProvider (entropyDraw p).2 s)) .entropyFail 0x07 _
  rw [drawsMade_of_fail k h]
  exact .edge rfl rfl (answered ▸ .now rfl)

/-- A draw that is not the last fails, or is followed by the edge that raises `ent_req` and the next draw. -/
theorem inDraw256_more {k : Nat} {got : List Word} {onWord : Word → Provider → Option Words256 × Provider} (p : Provider)
    (more : got.length ≠ 3)
    (next : ∀ w q, RespondsAfter (2 * drawsMade (k + 1) q - 1) (inDraw256 s (got ++ [w]) q) (drew256 s (onWord w q))) :
    RespondsAfter (2 * drawsMade (k + 2) p - 1) (inDraw256 s got p) (drew256 s (drawThen p onWord)) := by
  obtain ⟨w, hw, h⟩ | ⟨hf, h⟩ := drawThen_cases p onWord
  · have answered : systemEdge (inDraw256 s got p) =
        { inDraw256 s got (entropyDraw p).2 with phase := .drawing256 false (got ++ [w]) } := by
      obtain ⟨w0, w1, w2, rfl, -⟩ | ⟨-, e⟩ := wordDrawn256_cases got w (inDraw256 s got (entropyDraw p).2)
      · exact absurd rfl more
      · rw [systemEdge_drawing256 rfl, inDraw256_provider, hw]; exact e
    rw [h, handshakeEdges_of_ok k hw]
    refine .edge rfl rfl ?_
    rw [answered]
    refine .edge rfl rfl ?_
    rw [systemEdge_raises256 rfl]
    exact next w _
  · rw [h]; exact inDraw256_fail s _ got hf

/-- The last draw fails or completes the command. -/
theorem inDraw256_last (p : Provider) (w0 w1 w2 : Word) : RespondsAfter (2 * drawsMade 1 p - 1) (inDraw256 s [w0, w1, w2] p)
    (drew256 s (drawThen p fun w q => (some ⟨w0, w1, w2, w⟩, q))) := by
  obtain ⟨w, hw, h⟩ | ⟨hf, h⟩ := drawThen_cases p fun w q => (some (⟨w0, w1, w2, w⟩ : Words256), q)
  · rw [h, drawsMade_of_ok _ hw]
    refine .edge rfl rfl ?_
    rw [systemEdge_drawing256 rfl, inDraw256_provider, hw]
    exact .now rfl
  · rw [h]; exact inDraw256_fail s _ _ hf

@[simp] theorem inDraw128_provider (got : List Word) (p : Provider) : provider (inDraw128 s got p) = p := rfl

/-- A failed draw is the response's edge. -/
theorem inDraw128_fail {p : Provider} (k : Nat) (got : List Word) (h : (entropyDraw p).1 = .fail) :
    RespondsAfter (2 * drawsMade (k + 1) p - 1) (inDraw128 s got p) (drew128 s (none, (entropyDraw p).2)) := by
  have answered : systemEdge (inDraw128 s got p) = entropyFail128 (setProvider (entropyDraw p).2 s) := by
    rw [systemEdge_drawing128 rfl, inDraw128_provider, h]
    exact raise_phase_irrelevant (unseed128 (setProvider (entropyDraw p).2 s)) .entropyFail 0x87 _
  rw [drawsMade_of_fail k h]
  exact .edge rfl rfl (answered ▸ .now rfl)

/-- A draw that is not the last fails, or is followed by the edge that raises `ent_req` and the next draw. -/
theorem inDraw128_more {k : Nat} {got : List Word} {onWord : Word → Provider → Option Words128 × Provider} (p : Provider)
    (more : got.length ≠ 1)
    (next : ∀ w q, RespondsAfter (2 * drawsMade (k + 1) q - 1) (inDraw128 s (got ++ [w]) q) (drew128 s (onWord w q))) :
    RespondsAfter (2 * drawsMade (k + 2) p - 1) (inDraw128 s got p) (drew128 s (drawThen p onWord)) := by
  obtain ⟨w, hw, h⟩ | ⟨hf, h⟩ := drawThen_cases p onWord
  · have answered : systemEdge (inDraw128 s got p) =
        { inDraw128 s got (entropyDraw p).2 with phase := .drawing128 false (got ++ [w]) } := by
      obtain ⟨w0, rfl, -⟩ | ⟨-, e⟩ := wordDrawn128_cases got w (inDraw128 s got (entropyDraw p).2)
      · exact absurd rfl more
      · rw [systemEdge_drawing128 rfl, inDraw128_provider, hw]; exact e
    rw [h, handshakeEdges_of_ok k hw]
    refine .edge rfl rfl ?_
    rw [answered]
    refine .edge rfl rfl ?_
    rw [systemEdge_raises128 rfl]
    exact next w _
  · rw [h]; exact inDraw128_fail s _ got hf

/-- The last draw fails or completes the command. -/
theorem inDraw128_last (p : Provider) (w0 : Word) : RespondsAfter (2 * drawsMade 1 p - 1) (inDraw128 s [w0] p)
    (drew128 s (drawThen p fun w q => (some ⟨w0, w⟩, q))) := by
  obtain ⟨w, hw, h⟩ | ⟨hf, h⟩ := drawThen_cases p fun w q => (some (⟨w0, w⟩ : Words128), q)
  · rw [h, drawsMade_of_ok _ hw]
    refine .edge rfl rfl ?_
    rw [systemEdge_drawing128 rfl, inDraw128_provider, hw]
    exact .now rfl
  · rw [h]; exact inDraw128_fail s _ _ hf

theorem drawing256_respondsAfter : RespondsAfter (2 * drawsMade 4 (provider s) - 1) { s with phase := .drawing256 true [] }
    (drew256 s (draw256 (provider s))) :=
  inDraw256_more s _ (by simp) fun w0 p => inDraw256_more s p (by simp) fun w1 p =>
    inDraw256_more s p (by simp) fun w2 p => inDraw256_last s p w0 w1 w2

theorem drawing128_respondsAfter : RespondsAfter (2 * drawsMade 2 (provider s) - 1) { s with phase := .drawing128 true [] }
    (drew128 s (draw128 (provider s))) :=
  inDraw128_more s _ (by simp) fun w0 p => inDraw128_last s p w0

end Draws

section Command
variable (s : State)

/-- Command `i`, accepted in `s`, responds after R280's count of edges, the accepting one among them, with its effect. -/
def StartRefinesExec (i : Instr) (s : State) : Prop :=
  ∃ k u, responseCycles i s = k + 1 ∧ exec i s = .next u ∧ RespondsAfter k (startCommand i s) u

/-- A command that its accepting edge does whole. -/
theorem StartRefinesExec_of_oneCycle {i : Instr} (cycles : responseCycles i s = 1)
    (whole : exec i s = .next (startCommand i s)) : StartRefinesExec i s :=
  have ⟨_, responding⟩ := Effect_responds (exec_effect whole)
  ⟨0, _, cycles, whole, .now responding⟩

theorem exec_eq_next_nextOr (i : Instr) : exec i s = .next (nextOr s (exec i s)) := by
  obtain ⟨t, h⟩ := exec_answers_next i s
  rw [h]; rfl

/-- A jump of the engine's own words: refused at once when unseeded (R235), and otherwise a run of the jump machine. -/
theorem StartRefinesExec_of_jump256 {i : Instr} (tab : JumpKind)
    (cycles : responseCycles i s = if s.seeded256 then 257 else 1) (c : CmdWord)
    (start : startCommand i s = if s.seeded256 then { s with phase := .jumping256 false tab 0 zero256 } else raise .unseeded c s)
    (effect : exec i s = if s.seeded256 then .next (respond .done (writeWords256 (jump256 s.s256 (table256 tab)) s))
      else .next (raise .unseeded c s)) : StartRefinesExec i s := by
  cases seeded : s.seeded256
  · simp only [seeded, Bool.false_eq_true, if_false] at cycles start effect
    exact StartRefinesExec_of_oneCycle s cycles (start ▸ effect)
  · simp only [seeded, if_true] at cycles start effect
    refine ⟨256, _, cycles, effect, start ▸ ?_⟩
    simpa [writeWords256, seeded] using jumping256_respondsAfter false tab s s.s256

theorem StartRefinesExec_of_jump128 {i : Instr} (tab : JumpKind)
    (cycles : responseCycles i s = if s.seeded128 then 129 else 1) (c : CmdWord)
    (start : startCommand i s = if s.seeded128 then { s with phase := .jumping128 false tab 0 zero128 } else raise .unseeded c s)
    (effect : exec i s = if s.seeded128 then .next (respond .done (writeWords128 (jump128 s.s128 (table128 tab)) s))
      else .next (raise .unseeded c s)) : StartRefinesExec i s := by
  cases seeded : s.seeded128
  · simp only [seeded, Bool.false_eq_true, if_false] at cycles start effect
    exact StartRefinesExec_of_oneCycle s cycles (start ▸ effect)
  · simp only [seeded, if_true] at cycles start effect
    refine ⟨128, _, cycles, effect, start ▸ ?_⟩
    simpa [writeWords128, seeded] using jumping128_respondsAfter false tab s s.s128

theorem startRefinesExec (i : Instr) : StartRefinesExec i s := by
  cases i
  case jump256 => exact StartRefinesExec_of_jump256 s .short rfl 0x01 rfl rfl
  case ljump256 => exact StartRefinesExec_of_jump256 s .long rfl 0x02 rfl rfl
  case jump128 => exact StartRefinesExec_of_jump128 s .short rfl 0x81 rfl rfl
  case ljump128 => exact StartRefinesExec_of_jump128 s .long rfl 0x82 rfl rfl
  case loadj256 w0 w1 w2 w3 => exact ⟨257, _, rfl, rfl, loading256_respondsAfter s _⟩
  case seedc256 s0 => exact ⟨257, _, rfl, rfl, loading256_respondsAfter s _⟩
  case loadj128 w0 w1 => exact ⟨129, _, rfl, rfl, loading128_respondsAfter s _⟩
  case seedc128 s0 => exact ⟨129, _, rfl, rfl, loading128_respondsAfter s _⟩
  case seede256 => exact ⟨_, _, Nat.add_comm 1 _, execSeede256_eq s, drawing256_respondsAfter s⟩
  case seede128 => exact ⟨_, _, Nat.add_comm 1 _, execSeede128_eq s, drawing128_respondsAfter s⟩
  all_goals exact StartRefinesExec_of_oneCycle s rfl (exec_eq_next_nextOr s _)

theorem responseCycles_hostIn (i : Instr) (rest : List HostInput) :
    responseCycles i { s with hostIn := rest } = responseCycles i s := by cases i <;> rfl

/-- From an idle block that is offered a command, the edges of R280's count bring the response that its step takes. -/
theorem command_respondsAfter {c : Command} {rest : List HostInput} (idle : s.phase = .idle)
    (next : s.hostIn = .command c :: rest) : ∃ k u, step s = .next (takeResponse u) ∧ RespondsAfter k (systemEdge s) u ∧
      (∀ i, decode c = .ok i → responseCycles i s = k + 1) ∧ (∀ e, decode c = .error e → k = 0) := by
  rw [step_command idle next, systemEdge_command idle next]
  cases legal : decode c with
  | error e =>
    exact ⟨0, raise .illegalCmd c.word { s with hostIn := rest }, by simp [transact, legal],
      by simpa [acceptCommand, legal] using .now rfl, by simp, by simp⟩
  | ok i =>
    obtain ⟨k, u, cycles, effect, edges⟩ := startRefinesExec { s with hostIn := rest } i
    rw [responseCycles_hostIn] at cycles
    exact ⟨k, u, by simp [transact, legal, effect], by simpa [acceptCommand, legal] using edges, by simp [cycles], by simp⟩

end Command

/-- Settles O51: the accepting edge, `k` edges to the response (`command_respondsAfter`), and the edge that takes it. -/
theorem clockEdgesRefineTheTransaction : Obligations.ClockEdgesRefineTheTransaction := by
  unfold Obligations.ClockEdgesRefineTheTransaction
  intro s t c rest n idle next stepped legal illegal
  obtain ⟨k, u, stepped', edges, cycles, oneCycle⟩ := command_respondsAfter s idle next
  obtain rfl : t = takeResponse u := by simpa [stepped] using stepped'
  obtain rfl : n = k + 1 := by
    cases decoded : decode c with
    | ok i => rw [legal i decoded, cycles i decoded]
    | error e => rw [illegal e decoded, oneCycle e decoded]
  obtain ⟨r, responding⟩ := edges.responds
  refine ⟨?_, fun m one le => ?_, fun m one lt => ?_, ?_⟩
  · rw [Function.iterate_succ_apply', Function.iterate_succ_apply, edges.run, systemEdge_responding responding]
  · obtain ⟨m, rfl⟩ := Nat.exists_eq_add_of_le' one
    exact edges.busy_until (by omega)
  · obtain ⟨m, rfl⟩ := Nat.exists_eq_add_of_le' one
    exact edges.silent_before (by omega)
  · rw [Function.iterate_succ_apply, edges.run, takeResponse_of_responding responding]
    simp [offered, responding]

end Sys2Proof.Machine

/-! PROOFS. Isolation (O39, O40): a command neither reads nor writes what is outside its engine, said once as `exec`
commuting with `withOutsideOf`. -/

namespace Sys2Proof.Machine

/-- `s` with all that a command of engine `e` neither reads nor writes taken from `o`: the other engine's words and seeded
bit (10_state.md R34), the host's list and the responses taken. -/
def withOutsideOf (e : Engine) (o s : State) : State :=
  match e with
  | .g256 => { s with s128 := o.s128, seeded128 := o.seeded128, hostIn := o.hostIn, taken := o.taken }
  | .g128 => { s with s256 := o.s256, seeded256 := o.seeded256, hostIn := o.hostIn, taken := o.taken }

section Outside
variable (e : Engine) (o s : State)

@[simp] theorem withOutsideOf_self : withOutsideOf e s s = s := by cases e <;> rfl
@[simp] theorem withOutsideOf_hostIn : (withOutsideOf e o s).hostIn = o.hostIn := by cases e <;> rfl
@[simp] theorem withOutsideOf_taken : (withOutsideOf e o s).taken = o.taken := by cases e <;> rfl
@[simp] theorem withOutsideOf_g256_s128 : (withOutsideOf .g256 o s).s128 = o.s128 := rfl
@[simp] theorem withOutsideOf_g256_seeded128 : (withOutsideOf .g256 o s).seeded128 = o.seeded128 := rfl
@[simp] theorem withOutsideOf_g128_s256 : (withOutsideOf .g128 o s).s256 = o.s256 := rfl
@[simp] theorem withOutsideOf_g128_seeded256 : (withOutsideOf .g128 o s).seeded256 = o.seeded256 := rfl

@[simp] theorem withOutsideOf_g256_s256 : (withOutsideOf .g256 o s).s256 = s.s256 := rfl
@[simp] theorem withOutsideOf_g256_seeded256 : (withOutsideOf .g256 o s).seeded256 = s.seeded256 := rfl
@[simp] theorem withOutsideOf_g128_s128 : (withOutsideOf .g128 o s).s128 = s.s128 := rfl
@[simp] theorem withOutsideOf_g128_seeded128 : (withOutsideOf .g128 o s).seeded128 = s.seeded128 := rfl
@[simp] theorem provider_withOutsideOf : provider (withOutsideOf e o s) = provider s := by cases e <;> rfl

@[simp] theorem respond_withOutsideOf (r : Response) :
    respond r (withOutsideOf e o s) = withOutsideOf e o (respond r s) := by cases e <;> rfl
@[simp] theorem setProvider_withOutsideOf (p : Provider) :
    setProvider p (withOutsideOf e o s) = withOutsideOf e o (setProvider p s) := by cases e <;> rfl
@[simp] theorem raise_withOutsideOf (c : ErrorCause) (w : CmdWord) :
    raise c w (withOutsideOf e o s) = withOutsideOf e o (raise c w s) := by cases e <;> simp [raise_explicit, withOutsideOf]
@[simp] theorem writeWords256_withOutsideOf (w : Words256) :
    writeWords256 w (withOutsideOf .g256 o s) = withOutsideOf .g256 o (writeWords256 w s) := rfl
@[simp] theorem writeWords128_withOutsideOf (w : Words128) :
    writeWords128 w (withOutsideOf .g128 o s) = withOutsideOf .g128 o (writeWords128 w s) := rfl
@[simp] theorem seedWith256_withOutsideOf (w : Words256) :
    seedWith256 w (withOutsideOf .g256 o s) = withOutsideOf .g256 o (seedWith256 w s) := rfl
@[simp] theorem seedWith128_withOutsideOf (w : Words128) :
    seedWith128 w (withOutsideOf .g128 o s) = withOutsideOf .g128 o (seedWith128 w s) := rfl
@[simp] theorem unseed256_withOutsideOf :
    unseed256 (withOutsideOf .g256 o s) = withOutsideOf .g256 o (unseed256 s) := rfl
@[simp] theorem unseed128_withOutsideOf :
    unseed128 (withOutsideOf .g128 o s) = withOutsideOf .g128 o (unseed128 s) := rfl

/-- A command does the same to the state with other things outside its engine, and leaves those as they are. -/
theorem exec_withOutsideOf (i : Instr) : exec i (withOutsideOf i.engine o s) =
    .next (withOutsideOf i.engine o (nextOr s (exec i s))) := by
  cases i
  case next256 => cases seeded : s.seeded256 <;> simp [Instr.engine, exec, execNext256, nextOr, seeded]
  case jump256 => cases seeded : s.seeded256 <;> simp [Instr.engine, exec, execJump256, nextOr, seeded]
  case ljump256 => cases seeded : s.seeded256 <;> simp [Instr.engine, exec, execLjump256, nextOr, seeded]
  case next128 => cases seeded : s.seeded128 <;> simp [Instr.engine, exec, execNext128, nextOr, seeded]
  case jump128 => cases seeded : s.seeded128 <;> simp [Instr.engine, exec, execJump128, nextOr, seeded]
  case ljump128 => cases seeded : s.seeded128 <;> simp [Instr.engine, exec, execLjump128, nextOr, seeded]
  case seede256 =>
    rcases drawn : draw256 (provider s) with ⟨_ | w, p⟩ <;>
      simp [Instr.engine, exec, execSeede256, entropyFail256, nextOr, drawn]
  case seede128 =>
    rcases drawn : draw128 (provider s) with ⟨_ | w, p⟩ <;>
      simp [Instr.engine, exec, execSeede128, entropyFail128, nextOr, drawn]
  all_goals rfl

end Outside

section Kept
variable {i : Instr} {s t : State}

theorem exec_withOutsideOf_of_next (o : State) (h : exec i s = .next t) :
    exec i (withOutsideOf i.engine o s) = .next (withOutsideOf i.engine o t) := by
  rw [exec_withOutsideOf, h]; rfl

/-- What is outside a command's engine the command keeps. -/
theorem exec_keeps_outside (h : exec i s = .next t) : t = withOutsideOf i.engine s t := by
  have same := exec_withOutsideOf_of_next s h
  rw [withOutsideOf_self, h] at same
  exact Host.Outcome.next.inj same

theorem exec_keeps_hostIn (h : exec i s = .next t) : t.hostIn = s.hostIn := by
  rw [exec_keeps_outside h, withOutsideOf_hostIn]

theorem exec_keeps_taken (h : exec i s = .next t) : t.taken = s.taken := by
  rw [exec_keeps_outside h, withOutsideOf_taken]

/-- Only `SEEDE` draws (10_state.md R31). -/
theorem exec_keeps_provider (h : exec i s = .next t) (not256 : i ≠ .seede256) (not128 : i ≠ .seede128) :
    provider t = provider s := by
  cases exec_effect h with
  | onG256 w b r p _ _ _ draws => exact draws.resolve_left not256
  | onG128 w b r p _ _ _ draws => exact draws.resolve_left not128
  | unseeded => simp [provider, raise]
  | drawFails256 p instr => exact absurd instr not256
  | drawFails128 p instr => exact absurd instr not128

end Kept

/-- Settles O39: what is outside the command's engine is kept (`exec_keeps_outside`), and only `SEEDE` draws. -/
theorem commandsLeaveTheOtherEngineAlone : Obligations.CommandsLeaveTheOtherEngineAlone := by
  unfold Obligations.CommandsLeaveTheOtherEngineAlone
  intro i s t h
  have kept := exec_keeps_outside h
  refine ⟨fun engine => ?_, fun engine => ?_, exec_keeps_hostIn h, exec_keeps_taken h, fun not256 not128 => ?_⟩
  · rw [kept, engine]; simp
  · rw [kept, engine]; simp
  · exact Prod.mk.inj (exec_keeps_provider h not256 not128)

/-- Settles O40: the command runs on the state with the other engine's words and bit taken from elsewhere
(`exec_withOutsideOf`). -/
theorem commandsDoNotReadTheOtherEngine : Obligations.CommandsDoNotReadTheOtherEngine := by
  unfold Obligations.CommandsDoNotReadTheOtherEngine
  refine ⟨fun i s t w b engine h => ?_, fun i s t w b engine h => ?_⟩
  · have same := exec_withOutsideOf_of_next { s with s128 := w, seeded128 := b } h
    rw [engine] at same
    simpa [withOutsideOf, ← exec_keeps_hostIn h, ← exec_keeps_taken h] using same
  · have same := exec_withOutsideOf_of_next { s with s256 := w, seeded256 := b } h
    rw [engine] at same
    simpa [withOutsideOf, ← exec_keeps_hostIn h, ← exec_keeps_taken h] using same

end Sys2Proof.Machine

/-! PROOFS. The command stream (O8): the host's list is outside every engine, so what is still in it changes no command. -/

namespace Sys2Proof.Machine

section Stream

theorem decode_encode (i : Instr) : decode (encode i) = .ok i := by
  cases i <;> simp [encode, Command.plain, decode, decodeG256, decodeG128]

variable (s : State) (ins : List HostInput)

/-- A command does not read the host's list. -/
theorem exec_withHostIn {i : Instr} {s t : State} (h : exec i s = .next t) :
    exec i { s with hostIn := ins } = .next { t with hostIn := ins } := by
  have before : { s with hostIn := ins } = withOutsideOf i.engine { s with hostIn := ins } s := by
    cases i.engine <;> rfl
  have after : { t with hostIn := ins } = withOutsideOf i.engine { s with hostIn := ins } t := by
    rw [exec_keeps_outside h]; cases i.engine <;> rfl
  rw [before, after, exec_withOutsideOf_of_next _ h]

theorem takeResponse_withHostIn : takeResponse { s with hostIn := ins } = { takeResponse s with hostIn := ins } := by
  obtain ⟨s256, s128, seeded256, seeded128, err, ecode, ecmd, phase⟩ := s
  cases phase <;> rfl

theorem runCommands_withHostIn (is : List Instr) :
    runCommands is { s with hostIn := ins } = { runCommands is s with hostIn := ins } := by
  induction is generalizing s with
  | nil => rfl
  | cons i is ih =>
    obtain ⟨t, h⟩ := exec_answers_next i s
    rw [runCommands, runCommands, exec_withHostIn ins h, h, ← ih, ← takeResponse_withHostIn]
    rfl

/-- The step of an idle block that is offered an instruction's encoding executes it and has its response taken. -/
theorem step_encode {s t : State} {i : Instr} (idle : s.phase = .idle) (offered : s.hostIn = .command (encode i) :: ins)
    (h : exec i s = .next t) : step s = .next { takeResponse t with hostIn := ins } := by
  simp [step_command idle offered, transact, decode_encode, exec_withHostIn ins h, takeResponse_withHostIn]

/-- A command whose response was taken leaves the block idle. -/
theorem takeResponse_idle_of_exec {i : Instr} {s t : State} (h : exec i s = .next t) : (takeResponse t).phase = .idle := by
  obtain ⟨r, responding⟩ := Effect_responds (exec_effect h)
  rw [takeResponse_of_responding responding]

end Stream

/-- Settles O8, by induction on the list: the first step is the first command's (`step_encode`), and the host's list, which
no command reads, goes to the end (`runCommands_withHostIn`). -/
theorem commandStreamRunsInOrder : Obligations.CommandStreamRunsInOrder := by
  unfold Obligations.CommandStreamRunsInOrder
  intro is s rest idle offered
  induction is generalizing s with
  | nil => rw [show rest = s.hostIn from offered.symm]; rfl
  | cons i is ih =>
    obtain ⟨t, h⟩ := exec_answers_next i s
    rw [List.length_cons, run_succ _ (step_encode _ idle offered h)]
    refine (ih _ ?_ rfl).trans ?_
    · exact takeResponse_idle_of_exec h
    · rw [runCommands_withHostIn, runCommands, h]; rfl

end Sys2Proof.Machine

/-! PROOFS. `STATUS` bit by bit (O35), and the state after reset (O37, O45). -/

namespace Sys2Proof.Machine

/-- `STATUS` bit by bit (10_state.md R26). -/
theorem getLsbD_status (s : State) (n : Nat) : (status s).getLsbD n =
    match n with
    | 0 => busy s
    | 1 => s.seeded256
    | 2 => s.seeded128
    | 3 => s.err
    | n + 4 => if n < 4 then s.ecode.getLsbD n else s.ecmd.getLsbD (n - 4) := by
  simp only [status, BitVec.getLsbD_append]
  rcases n with _ | _ | _ | _ | n <;> simp

/-- Settles O35: the single bits and the two fields' bits are those of `getLsbD_status`. -/
theorem statusRegisterFields : Obligations.StatusRegisterFields := by
  unfold Obligations.StatusRegisterFields
  intro s
  have bit := getLsbD_status s
  refine ⟨bit 0, bit 1, bit 2, bit 3, ?_, ?_, fun rst => ⟨rfl, (bit 3).symm⟩⟩
  · ext i hi
    rw [BitVec.getElem_extractLsb', Nat.add_comm, bit]
    simp [hi]
  · ext i hi
    rw [BitVec.getElem_extractLsb', show 8 + i = i + 4 + 4 by omega, bit]
    simp [BitVec.getLsbD_eq_getElem hi]

/-- Settles O37: `State.reset` is one state, on which the invariant's three checks evaluate to true. -/
theorem invariantHoldsAtReset : Obligations.InvariantHoldsAtReset := ⟨rfl, rfl, rfl⟩

/-- An unseeded engine's words do not show in the response of any command (60_exceptions.md R235). -/
theorem exec_response_of_unseeded (i : Instr) (s : State) (w : Words256) (x : Words128)
    (unseeded : engineSeeded i.engine s = false) :
    ∃ t u r, exec i s = .next t ∧ exec i { s with s256 := w, s128 := x } = .next u ∧
      t.phase = .responding r ∧ u.phase = .responding r := by
  cases i
  case next256 => exact ⟨_, _, _, execNext256_unseeded unseeded, execNext256_unseeded unseeded, rfl, rfl⟩
  case jump256 => exact ⟨_, _, _, execJump256_unseeded unseeded, execJump256_unseeded unseeded, rfl, rfl⟩
  case ljump256 => exact ⟨_, _, _, execLjump256_unseeded unseeded, execLjump256_unseeded unseeded, rfl, rfl⟩
  case next128 => exact ⟨_, _, _, execNext128_unseeded unseeded, execNext128_unseeded unseeded, rfl, rfl⟩
  case jump128 => exact ⟨_, _, _, execJump128_unseeded unseeded, execJump128_unseeded unseeded, rfl, rfl⟩
  case ljump128 => exact ⟨_, _, _, execLjump128_unseeded unseeded, execLjump128_unseeded unseeded, rfl, rfl⟩
  case seede256 =>
    rcases drawn : draw256 (provider s) with ⟨_ | _, p⟩
    · exact ⟨_, _, _, execSeede256_failed drawn, execSeede256_failed drawn, rfl, rfl⟩
    · exact ⟨_, _, _, execSeede256_drawn drawn, execSeede256_drawn drawn, rfl, rfl⟩
  case seede128 =>
    rcases drawn : draw128 (provider s) with ⟨_ | _, p⟩
    · exact ⟨_, _, _, execSeede128_failed drawn, execSeede128_failed drawn, rfl, rfl⟩
    · exact ⟨_, _, _, execSeede128_drawn drawn, execSeede128_drawn drawn, rfl, rfl⟩
  all_goals exact ⟨_, _, _, rfl, rfl, rfl, rfl⟩

/-- Settles O45: the values by evaluation; the words do not show because both engines are unseeded
(`exec_response_of_unseeded`). -/
theorem resetStateValues : Obligations.ResetStateValues := by
  unfold Obligations.ResetStateValues
  have unseeded (e : Engine) : engineSeeded e State.reset = false := by cases e <;> rfl
  exact ⟨rfl, rfl, rfl, rfl, rfl, rfl, rfl, rfl, rfl, rfl, rfl, rfl, rfl, fun i w x =>
    exec_response_of_unseeded i State.reset w x (unseeded i.engine)⟩

end Sys2Proof.Machine

/-! PROOFS. The entropy handshake (O49): when `ent_req` is 1, and what each clock edge of a `SEEDE` does to it. -/

namespace Sys2Proof.Machine

section Request
variable {s : State}

/-- `ent_req` is 1 in the two drawing phases that say so, and only there. -/
theorem entReq_eq_true_iff :
    entReq s = true ↔ ∃ got, s.phase = .drawing256 true got ∨ s.phase = .drawing128 true got := by
  unfold entReq; cases s.phase <;> simp

theorem entReq_of_responding {r : Response} (h : s.phase = .responding r) : entReq s = false := by simp [entReq, h]

theorem entReq_of_exec {i : Instr} {t : State} (h : exec i s = .next t) : entReq t = false := by
  obtain ⟨r, responding⟩ := Effect_responds (exec_effect h)
  exact entReq_of_responding responding

theorem entReq_takeResponse : entReq (takeResponse s) = entReq s := by
  obtain ⟨r, responding, h⟩ | ⟨-, h⟩ := takeResponse_cases s
  · rw [h, entReq_of_responding responding]; rfl
  · rw [h]

theorem entReq_wordDrawn256 (got : List Word) (w : Word) : entReq (wordDrawn256 got w s) = false := by
  obtain ⟨_, _, _, -, h⟩ | ⟨-, h⟩ := wordDrawn256_cases got w s <;> rw [h] <;> rfl

theorem entReq_wordDrawn128 (got : List Word) (w : Word) : entReq (wordDrawn128 got w s) = false := by
  obtain ⟨_, -, h⟩ | ⟨-, h⟩ := wordDrawn128_cases got w s <;> rw [h] <;> rfl

theorem entReq_jumpCycle256 (load : Bool) (tab : JumpKind) (idx : Fin 256) (acc : Words256) :
    entReq (jumpCycle256 load tab idx acc s) = false := by
  obtain ⟨_, h⟩ | ⟨-, h⟩ := jumpCycle256_cases load tab idx acc s <;> rw [h] <;> rfl

theorem entReq_jumpCycle128 (load : Bool) (tab : JumpKind) (idx : Fin 128) (acc : Words128) :
    entReq (jumpCycle128 load tab idx acc s) = false := by
  obtain ⟨_, h⟩ | ⟨-, h⟩ := jumpCycle128_cases load tab idx acc s <;> rw [h] <;> rfl

/-- Of the accepting edges only a `SEEDE`'s raises `ent_req`. -/
theorem entReq_startCommand {i : Instr} (h : entReq (startCommand i s) = true) : i = .seede256 ∨ i = .seede128 := by
  cases i
  case seede256 => exact .inl rfl
  case seede128 => exact .inr rfl
  case next256 => cases (entReq_of_exec (exec_eq_next_nextOr s .next256)).symm.trans h
  case next128 => cases (entReq_of_exec (exec_eq_next_nextOr s .next128)).symm.trans h
  case jump256 | ljump256 | jump128 | ljump128 => simp only [startCommand] at h; split at h <;> cases h
  all_goals cases h

theorem entReq_acceptCommand {c : Command} (h : entReq (acceptCommand c s) = true) : c.word = 0x07 ∨ c.word = 0x87 := by
  unfold acceptCommand at h
  split at h
  · rename_i decoded
    rw [decode_word decoded]
    obtain rfl | rfl := entReq_startCommand h
    · exact .inl rfl
    · exact .inr rfl
  · cases h

end Request

theorem acceptCommand_seede256 {c : Command} (s : State) (h : c.word = 0x07) :
    acceptCommand c s = { s with phase := .drawing256 true [] } := by
  simp [acceptCommand, decode, h, decodeG256, startCommand]

theorem acceptCommand_seede128 {c : Command} (s : State) (h : c.word = 0x87) :
    acceptCommand c s = { s with phase := .drawing128 true [] } := by
  simp [acceptCommand, decode, h, decodeG128, startCommand]

section ClockEdge
variable {p : PortIn} {s : State} {got : List Word} (noReset : p.rst = false)
include noReset

theorem clockEdge_accepts (idle : s.phase = .idle) (valid : p.cmdValid = true) :
    clockEdge p s = acceptCommand p.cmd s := by simp [clockEdge, noReset, idle, valid]

theorem clockEdge_waits (req : entReq s = true) (noAck : p.entAck = false) : clockEdge p s = s := by
  obtain ⟨got, h | h⟩ := entReq_eq_true_iff.mp req <;> simp [clockEdge, noReset, h, noAck]

theorem clockEdge_answers256 (h : s.phase = .drawing256 true got) (ack : p.entAck = true) :
    clockEdge p s = if p.entFail then entropyFail256 s else wordDrawn256 got p.entData s := by
  simp [clockEdge, noReset, h, ack]

theorem clockEdge_answers128 (h : s.phase = .drawing128 true got) (ack : p.entAck = true) :
    clockEdge p s = if p.entFail then entropyFail128 s else wordDrawn128 got p.entData s := by
  simp [clockEdge, noReset, h, ack]

theorem clockEdge_raises256 (h : s.phase = .drawing256 false got) :
    clockEdge p s = { s with phase := .drawing256 true got } := by simp [clockEdge, noReset, h]

theorem clockEdge_raises128 (h : s.phase = .drawing128 false got) :
    clockEdge p s = { s with phase := .drawing128 true got } := by simp [clockEdge, noReset, h]

/-- The edge of the answer lowers `ent_req` (10_state.md R31). -/
theorem entReq_clockEdge_of_ack (req : entReq s = true) (ack : p.entAck = true) : entReq (clockEdge p s) = false := by
  obtain ⟨got, h | h⟩ := entReq_eq_true_iff.mp req
  · rw [clockEdge_answers256 noReset h ack]
    split
    · rfl
    · exact entReq_wordDrawn256 got _
  · rw [clockEdge_answers128 noReset h ack]
    split
    · rfl
    · exact entReq_wordDrawn128 got _

end ClockEdge

/-- Where an edge raises `ent_req`: accepting a `SEEDE`, and between two of its draws. -/
theorem entReq_raised {p : PortIn} {s : State} (raised : entReq (clockEdge p s) = true) (low : entReq s = false) :
    (s.phase = .idle ∧ p.cmdValid = true ∧ (p.cmd.word = 0x07 ∨ p.cmd.word = 0x87)) ∨
      ∃ got, s.phase = .drawing256 false got ∨ s.phase = .drawing128 false got := by
  cases reset : p.rst
  case true => rw [clockEdge, if_pos reset] at raised; cases raised
  cases phase : s.phase <;> simp only [clockEdge, reset, phase, Bool.false_eq_true, if_false] at raised
  case idle =>
    cases valid : p.cmdValid
    case false => simp [valid, low] at raised
    case true => exact .inl ⟨rfl, rfl, entReq_acceptCommand (by simpa [valid] using raised)⟩
  case loading256 | loading128 => cases raised
  case jumping256 => rw [entReq_jumpCycle256] at raised; cases raised
  case jumping128 => rw [entReq_jumpCycle128] at raised; cases raised
  case drawing256 req got =>
    cases req
    case false => exact .inr ⟨got, .inl rfl⟩
    case true => simp [entReq, phase] at low
  case drawing128 req got =>
    cases req
    case false => exact .inr ⟨got, .inr rfl⟩
    case true => simp [entReq, phase] at low
  case responding =>
    split at raised
    · rw [entReq_takeResponse, low] at raised; cases raised
    · rw [low] at raised; cases raised

/-- Settles O49, clause by clause from what each edge of a `SEEDE` does. -/
theorem entropyHandshake : Obligations.EntropyHandshake := by
  unfold Obligations.EntropyHandshake
  refine ⟨fun p s idle noReset valid => ⟨fun word => ?_, fun word => ?_⟩, fun p s => entReq_raised,
    fun p s req noReset noAck => clockEdge_waits noReset req noAck,
    fun p s req noReset ack => entReq_clockEdge_of_ack noReset req ack,
    fun p s got noReset ack ok => ⟨fun h more => ?_, fun h more => ?_, fun w0 w1 w2 h last => ?_, fun w0 h last => ?_⟩,
    fun p s got noReset => ⟨clockEdge_raises256 noReset, clockEdge_raises128 noReset⟩,
    fun p s got noReset ack fail => ⟨fun h => ?_, fun h => ?_⟩⟩
  · rw [clockEdge_accepts noReset idle valid, acceptCommand_seede256 s word]; exact ⟨rfl, rfl⟩
  · rw [clockEdge_accepts noReset idle valid, acceptCommand_seede128 s word]; exact ⟨rfl, rfl⟩
  · rw [clockEdge_answers256 noReset h ack, ok]
    obtain ⟨_, _, _, rfl, -⟩ | ⟨-, kept⟩ := wordDrawn256_cases got p.entData s
    · simp at more
    · exact kept
  · rw [clockEdge_answers128 noReset h ack, ok]
    obtain ⟨_, rfl, -⟩ | ⟨-, kept⟩ := wordDrawn128_cases got p.entData s
    · simp at more
    · exact kept
  · rw [clockEdge_answers256 noReset h ack, ok, last]; rfl
  · rw [clockEdge_answers128 noReset h ack, ok, last]; rfl
  · rw [clockEdge_answers256 noReset h ack, fail]; rfl
  · rw [clockEdge_answers128 noReset h ack, fail]; rfl

end Sys2Proof.Machine

/-! PROOFS. The command and response channels edge by edge (O47, O48, O53), the one response of every command (O7), and
that nothing of a command shows before it (O52). -/

namespace Sys2Proof.Machine

section Silence
variable {s : State}

/-- What shows of a command besides its response on offer (20_memory.md R57, 70_reset_and_hazards.md R272): the responses
taken, the seeded bits and the error record. -/
def shown (s : State) : List Response × Bool × Bool × Bool × BitVec 4 × CmdWord :=
  (s.taken, s.seeded256, s.seeded128, s.err, s.ecode, s.ecmd)

theorem offered_eq_some_iff {r : Response} : offered s = some r ↔ s.phase = .responding r := by
  unfold offered; cases s.phase <;> simp

theorem offered_ne_none_of_exec {i : Instr} {t : State} (h : exec i s = .next t) : offered t ≠ none := by
  obtain ⟨r, responding⟩ := Effect_responds (exec_effect h)
  simp [offered_eq_some_iff.mpr responding]

/-- An accepting edge that brings no response only puts the command in the block. -/
theorem shown_acceptCommand_of_silent {c : Command} (silent : offered (acceptCommand c s) = none) :
    shown (acceptCommand c s) = shown s := by
  unfold acceptCommand at silent ⊢
  cases legal : decode c with
  | error e => simp [legal, raise, offered] at silent
  | ok i =>
    simp only [legal] at silent ⊢
    obtain whole | ⟨ph, started, -⟩ := startCommand_cases i s
    · exact absurd silent (offered_ne_none_of_exec whole)
    · rw [started]; rfl

theorem shown_jumpCycle256_of_silent {load : Bool} {tab : JumpKind} {idx : Fin 256} {acc : Words256}
    (silent : offered (jumpCycle256 load tab idx acc s) = none) : shown (jumpCycle256 load tab idx acc s) = shown s := by
  obtain ⟨_, more⟩ | ⟨-, last⟩ := jumpCycle256_cases load tab idx acc s
  · rw [more]; rfl
  · rw [last] at silent; cases silent

theorem shown_jumpCycle128_of_silent {load : Bool} {tab : JumpKind} {idx : Fin 128} {acc : Words128}
    (silent : offered (jumpCycle128 load tab idx acc s) = none) : shown (jumpCycle128 load tab idx acc s) = shown s := by
  obtain ⟨_, more⟩ | ⟨-, last⟩ := jumpCycle128_cases load tab idx acc s
  · rw [more]; rfl
  · rw [last] at silent; cases silent

theorem shown_wordDrawn256_of_silent {got : List Word} {w : Word} (silent : offered (wordDrawn256 got w s) = none) :
    shown (wordDrawn256 got w s) = shown s := by
  obtain ⟨_, _, _, -, last⟩ | ⟨-, more⟩ := wordDrawn256_cases got w s
  · rw [last] at silent; cases silent
  · rw [more]; rfl

theorem shown_wordDrawn128_of_silent {got : List Word} {w : Word} (silent : offered (wordDrawn128 got w s) = none) :
    shown (wordDrawn128 got w s) = shown s := by
  obtain ⟨_, -, last⟩ | ⟨-, more⟩ := wordDrawn128_cases got w s
  · rw [last] at silent; cases silent
  · rw [more]; rfl

/-- With a command in the block, an edge between two silent states is a load cycle, an iteration of a jump, a draw or the
edge between two draws: it changes words, provider and phase only. -/
theorem shown_systemEdge_of_silent (inBlock : busy s = true) (before : offered s = none)
    (after : offered (systemEdge s) = none) : shown (systemEdge s) = shown s := by
  cases phase : s.phase with
  | idle => simp [busy, phase] at inBlock
  | loading256 w => rw [systemEdge_loading256 phase]; rfl
  | loading128 w => rw [systemEdge_loading128 phase]; rfl
  | jumping256 load tab idx acc =>
    rw [systemEdge_jumping256 phase] at after ⊢
    exact shown_jumpCycle256_of_silent after
  | jumping128 load tab idx acc =>
    rw [systemEdge_jumping128 phase] at after ⊢
    exact shown_jumpCycle128_of_silent after
  | drawing256 req got =>
    cases req
    case false => rw [systemEdge_raises256 phase]; rfl
    case true =>
      rw [systemEdge_drawing256 phase] at after ⊢
      cases answer : (entropyDraw (provider s)).1 <;> simp only [answer] at after ⊢
      case fail => cases after
      case ok w => exact shown_wordDrawn256_of_silent after
  | drawing128 req got =>
    cases req
    case false => rw [systemEdge_raises128 phase]; rfl
    case true =>
      rw [systemEdge_drawing128 phase] at after ⊢
      cases answer : (entropyDraw (provider s)).1 <;> simp only [answer] at after ⊢
      case fail => cases after
      case ok w => exact shown_wordDrawn128_of_silent after
  | responding r => simp [offered, phase] at before

/-- Until the edge of the response, all that shows is as it was. -/
theorem RespondsAfter.shown_before {n m : Nat} {u : State} (h : RespondsAfter n s u) (hm : m < n) :
    shown (systemEdge^[m] s) = shown s := by
  induction h generalizing m with
  | now => omega
  | edge inBlock silent later ih =>
    cases m with
    | zero => rfl
    | succ m =>
      have silent' := later.silent_before (m := 0) (by omega)
      exact (ih (by omega)).trans (shown_systemEdge_of_silent inBlock silent silent')

end Silence

/-- Settles O52: the accepting edge and every later edge before the response are silent (`RespondsAfter.silent_before`), and
silent edges change nothing that shows. -/
theorem noPartOfACommandShows : Obligations.NoPartOfACommandShows := by
  unfold Obligations.NoPartOfACommandShows
  intro s c rest n m idle next legal illegal one lt
  obtain ⟨k, u, -, edges, cycles, oneCycle⟩ := command_respondsAfter s idle next
  obtain rfl : n = k + 1 := by
    cases decoded : decode c with
    | ok i => rw [legal i decoded, cycles i decoded]
    | error e => rw [illegal e decoded, oneCycle e decoded]
  obtain ⟨m, rfl⟩ := Nat.exists_eq_add_of_le' one
  have accepted : shown (systemEdge s) = shown s := by
    have silent := edges.silent_before (m := 0) (by omega)
    rw [Function.iterate_zero_apply, systemEdge_command idle next] at silent
    rw [systemEdge_command idle next]
    exact shown_acceptCommand_of_silent silent
  have same : shown (systemEdge^[m + 1] s) = shown s := (edges.shown_before (by omega)).trans accepted
  simp only [shown, Prod.mk.injEq] at same
  exact ⟨edges.silent_before (by omega), same⟩

/-- A transaction ends by taking the one response of a state that keeps the host's list and the responses taken. -/
theorem transact_takes_response (c : Command) (s : State) :
    ∃ u r, transact c s = .next (takeResponse u) ∧ u.phase = .responding r ∧ u.hostIn = s.hostIn ∧ u.taken = s.taken := by
  cases legal : decode c with
  | error e =>
    exact ⟨raise .illegalCmd c.word s, _, by simp [transact, legal], rfl, by simp [raise], by simp [raise]⟩
  | ok i =>
    obtain ⟨u, effect⟩ := exec_answers_next i s
    obtain ⟨r, responding⟩ := Effect_responds (exec_effect effect)
    exact ⟨u, r, by simp [transact, legal, effect], responding, exec_keeps_hostIn effect, exec_keeps_taken effect⟩

/-- Settles O7: the step is the transaction of the command, whose one response is taken (`transact_takes_response`). -/
theorem everyCommandGetsOneResponse : Obligations.EveryCommandGetsOneResponse := by
  unfold Obligations.EveryCommandGetsOneResponse
  intro s c rest idle next
  obtain ⟨u, r, effect, responding, kept, taken⟩ := transact_takes_response c { s with hostIn := rest }
  refine ⟨_, r, (step_command idle next).trans effect, ?_⟩
  rw [takeResponse_of_responding responding]
  exact ⟨rfl, kept, by rw [taken]⟩

section Channels
variable {p : PortIn} {s : State} {r : Response}

/-- Outside the idle phase an edge does not read the command port (70_reset_and_hazards.md R270). -/
theorem clockEdge_ignores_command (inBlock : s.phase ≠ .idle) (v : Bool) (c : Command) :
    clockEdge { p with cmdValid := v, cmd := c } s = clockEdge p s := by
  unfold clockEdge
  cases phase : s.phase
  case idle => exact absurd phase inBlock
  case drawing256 req _ | drawing128 req _ => cases req <;> rfl
  all_goals rfl

theorem cmdReady_of_inBlock (rst : Bool) (inBlock : s.phase ≠ .idle) : cmdReady rst s = false := by
  simp [cmdReady, busy, inBlock]

theorem busy_of_idle (idle : s.phase = .idle) : busy s = false := by simp [busy, idle]

theorem clockEdge_idles (noReset : p.rst = false) (idle : s.phase = .idle) (notValid : p.cmdValid = false) :
    clockEdge p s = s := by simp [clockEdge, noReset, idle, notValid]

theorem clockEdge_resets (reset : p.rst = true) : clockEdge p s = applyReset s := by simp [clockEdge, reset]

theorem clockEdge_holds (noReset : p.rst = false) (responding : s.phase = .responding r) (notReady : p.rspReady = false) :
    clockEdge p s = s := by simp [clockEdge, noReset, responding, notReady]

theorem clockEdge_takes (noReset : p.rst = false) (responding : s.phase = .responding r) (ready : p.rspReady = true) :
    clockEdge p s = { s with phase := .idle, taken := r :: s.taken } := by
  rw [← takeResponse_of_responding responding]
  simp [clockEdge, noReset, responding, ready]

/-- `rsp_kind` is never 3 (10_state.md R30). -/
theorem rspKind_ne_three (r : Response) : rspKind r ≠ 3 := by cases r <;> simp [rspKind]

theorem portOut_rsp_of_responding (rst : Bool) (responding : s.phase = .responding r) :
    (portOut rst s).rsp = some (rspKind r, rspData r) := by
  simp [portOut, offered_eq_some_iff.mpr responding]

theorem portOut_rspValid_iff (rst : Bool) : (portOut rst s).rspValid = true ↔ ∃ r, s.phase = .responding r := by
  simp [portOut, Option.isSome_iff_exists, offered_eq_some_iff]

end Channels

/-- Settles O47: an edge reads the command port in the idle phase only (`clockEdge_ignores_command`). -/
theorem busyBlockIgnoresTheCommandPort : Obligations.BusyBlockIgnoresTheCommandPort := by
  unfold Obligations.BusyBlockIgnoresTheCommandPort
  exact ⟨fun p v c s inBlock => ⟨clockEdge_ignores_command inBlock v c, cmdReady_of_inBlock p.rst inBlock⟩,
    fun p s idle noReset notValid => clockEdge_idles noReset idle notValid⟩

/-- Settles O48: what the ports drive is `rspKind` and `rspData` of the response on offer, and an edge holds it
(`clockEdge_holds`) or gives it to the host (`clockEdge_takes`). -/
theorem responseIsHeldUntilTaken : Obligations.ResponseIsHeldUntilTaken := by
  unfold Obligations.ResponseIsHeldUntilTaken
  refine ⟨fun p s r noReset responding => ?_, fun rst s kind data drives => ?_, fun rst s => (portOut_rspValid_iff rst).mp⟩
  · have drives := portOut_rsp_of_responding false responding
    refine ⟨(portOut_rspValid_iff false).mpr ⟨r, responding⟩, ?_, ?_, ?_, clockEdge_holds noReset responding, fun ready => ?_⟩
    · rintro rfl; exact drives
    · rintro v rfl; exact drives
    · rintro code rfl; exact drives
    · have taken := clockEdge_takes noReset responding ready
      have notBusy : busy (clockEdge p s) = false := busy_of_idle (by rw [taken])
      exact ⟨taken, by simp [cmdReady, notBusy], (getLsbD_status _ 0).trans notBusy⟩
  · obtain ⟨r, -, same⟩ := Option.map_eq_some_iff.mp drives
    obtain ⟨rfl, -⟩ := Prod.mk.inj same
    exact rspKind_ne_three r

/-- Settles O53: with `rst = 1` the edge is a reset (`clockEdge_resets`), which keeps the responses taken. -/
theorem resetWinsOverTakingAResponse : Obligations.ResetWinsOverTakingAResponse := by
  unfold Obligations.ResetWinsOverTakingAResponse
  intro p s r reset _ _
  rw [clockEdge_resets reset]
  exact ⟨rfl, rfl, (getLsbD_status _ 0).trans (busy_of_idle (applyReset_phase s))⟩

end Sys2Proof.Machine

/-! PROOFS. The encoding (O1 to O5): which words decode, what the decoder refuses, what it reads of the operand words, and
that a step runs the decoded command. -/

namespace Sys2Proof

/-- `i` with the operand words it reads (30_encoding.md R74) taken from `d0` to `d3`. -/
def Instr.withOperands (d0 d1 d2 d3 : Word) : Instr → Instr
  | .loadj256 _ _ _ _ => .loadj256 d0 d1 d2 d3
  | .load256 _ _ _ _ => .load256 d0 d1 d2 d3
  | .seedc256 _ => .seedc256 d0
  | .seedm256 _ => .seedm256 d0
  | .loadj128 _ _ => .loadj128 d0 d1
  | .load128 _ _ => .load128 d0 d1
  | .seedc128 _ => .seedc128 d0
  | .seedm128 _ => .seedm128 d0
  | i => i

/-- Every row of the command map (R75), for the word alone: the operands are those offered, not those of `i`. -/
theorem decode_encode_word (i : Instr) (d0 d1 d2 d3 : Word) :
    decode ⟨(encode i).word, d0, d1, d2, d3⟩ = .ok (i.withOperands d0 d1 d2 d3) := by
  cases i <;> simp [encode, Command.plain, decode, decodeG256, decodeG128, Instr.withOperands]

theorem legalWord_eq_true_iff (w : CmdWord) :
    legalWord w = true ↔ w.extractLsb' 4 3 = 0#3 ∧ (w.extractLsb' 0 4).toNat < 0xA := by
  simp [legalWord, rsvIsZero, opIsDefined]

theorem legalWord_encode (i : Instr) : legalWord (encode i).word = true := by
  cases i <;> simp [encode, Command.plain, legalWord_eq_true_iff]

section Command
variable {c : Command}

/-- A command that decodes gives the instruction its own operand words. -/
theorem decode_eq_withOperands {i : Instr} (word : c.word = (encode i).word) :
    decode c = .ok (i.withOperands c.din0 c.din1 c.din2 c.din3) := by
  rw [← decode_encode_word, ← word]

theorem decode_of_rsv_ne_zero (rsv : c.word.extractLsb' 4 3 ≠ 0#3) : decode c = .error .reservedFieldNotZero :=
  if_pos rsv

theorem decodeG256_of_undefined {op : Nat} (undefined : 0xA ≤ op) : decodeG256 op c = .error .operationNotDefined := by
  obtain ⟨n, rfl⟩ := Nat.exists_eq_add_of_le' undefined
  rfl

theorem decodeG128_of_undefined {op : Nat} (undefined : 0xA ≤ op) : decodeG128 op c = .error .operationNotDefined := by
  obtain ⟨n, rfl⟩ := Nat.exists_eq_add_of_le' undefined
  rfl

theorem decode_of_op_undefined (rsv : c.word.extractLsb' 4 3 = 0#3) (undefined : 0xA ≤ (c.word.extractLsb' 0 4).toNat) :
    decode c = .error .operationNotDefined := by
  rw [decode, if_neg (not_not.mpr rsv)]
  split
  · exact decodeG256_of_undefined undefined
  · exact decodeG128_of_undefined undefined

/-- The legality check of R78 agrees with the decoder of R77. -/
theorem legalWord_iff_decodes : legalWord c.word = true ↔ ∃ i, decode c = .ok i := by
  constructor
  · intro legal
    cases decoded : decode c with
    | ok i => exact ⟨i, rfl⟩
    | error e => rw [decode_error decoded] at legal; cases legal
  · rintro ⟨i, decoded⟩
    rw [decode_word decoded, legalWord_encode]

theorem decodes_of_fields (rsv : c.word.extractLsb' 4 3 = 0#3) (defined : (c.word.extractLsb' 0 4).toNat < 0xA) :
    ∃ i, decode c = .ok i :=
  legalWord_iff_decodes.mp ((legalWord_eq_true_iff c.word).mpr ⟨rsv, defined⟩)

/-- A command has the word of an instruction, or it is refused for its word, whatever the operand words are. -/
theorem decode_cases (c : Command) : (∃ i, c.word = (encode i).word) ∨
    ∃ e, ∀ c' : Command, c'.word = c.word → decode c' = .error e := by
  by_cases rsv : c.word.extractLsb' 4 3 = 0#3
  · by_cases defined : (c.word.extractLsb' 0 4).toNat < 0xA
    · obtain ⟨i, decoded⟩ := decodes_of_fields rsv defined
      exact .inl ⟨i, decode_word decoded⟩
    · exact .inr ⟨_, fun _ same => decode_of_op_undefined (same ▸ rsv) (same ▸ not_lt.mp defined)⟩
  · exact .inr ⟨_, fun _ same => decode_of_rsv_ne_zero (same ▸ rsv)⟩

end Command

end Sys2Proof

namespace Sys2Proof.Machine

/-- Settles O1: `decode_encode`, a case for each of the 20 commands. -/
theorem decodeOfEncodeIsTheInstruction : Obligations.DecodeOfEncodeIsTheInstruction := decode_encode

/-- Settles O2: the rows are those of `decode_encode_word`, and a command that decodes has its instruction's word
(`decode_word`), one of the 20. -/
theorem commandMapDecodes : Obligations.CommandMapDecodes := by
  unfold Obligations.CommandMapDecodes
  refine ⟨fun d0 d1 d2 d3 => ?_, fun c i decoded => ?_⟩
  · have row (i : Instr) := decode_encode_word i d0 d1 d2 d3
    exact ⟨row .next256, row .jump256, row .ljump256, row (.loadj256 d0 d1 d2 d3), row (.load256 d0 d1 d2 d3),
      row (.seedc256 d0), row (.seedm256 d0), row .seede256, row .rdmin256, row .rdmax256,
      row .next128, row .jump128, row .ljump128, row (.loadj128 d0 d1), row (.load128 d0 d1),
      row (.seedc128 d0), row (.seedm128 d0), row .seede128, row .rdmin128, row .rdmax128⟩
  · rw [decode_word decoded]
    cases i <;> simp [encode, Command.plain]

/-- Settles O3: the two refusals by name, the legality check as the decoder's (`legalWord_iff_decodes`), and the count by
evaluation. -/
theorem illegalWordsAreTheOther236 : Obligations.IllegalWordsAreTheOther236 := by
  unfold Obligations.IllegalWordsAreTheOther236
  exact ⟨fun _ => decode_of_rsv_ne_zero, fun _ => decode_of_op_undefined, fun _ => decodes_of_fields,
    fun _ => legalWord_iff_decodes, by decide +kernel⟩

/-- Settles O4: a refused word is refused for itself (`decode_cases`); a legal one gives its command the operand words of
R74, which are those the table of R72 lists. -/
theorem decodeReadsOnlyTheListedOperands : Obligations.DecodeReadsOnlyTheListedOperands := by
  unfold Obligations.DecodeReadsOnlyTheListedOperands
  intro c c' same din0 din1 din23
  obtain ⟨i, word⟩ | ⟨e, refused⟩ := decode_cases c
  · rw [decode_eq_withOperands word, decode_eq_withOperands (same ▸ word)]
    rw [word] at din0 din1 din23
    cases i
    case loadj256 | load256 =>
      obtain ⟨din2, din3⟩ := din23 (by simp [encode])
      rw [din0 (by simp [encode]), din1 (by simp [encode]), din2, din3]
    case loadj128 | load128 =>
      simp only [Instr.withOperands, din0 (by simp [encode]), din1 (by simp [encode])]
    case seedc256 | seedm256 | seedc128 | seedm128 =>
      simp only [Instr.withOperands, din0 (by simp [encode])]
    all_goals rfl
  · rw [refused c rfl, refused c' same.symm]

/-- Settles O5: the step is the transaction of the command, and the state `exec` answers has a response on offer. -/
theorem stepRunsTheDecodedCommand : Obligations.StepRunsTheDecodedCommand := by
  unfold Obligations.StepRunsTheDecodedCommand
  intro s c rest i idle next decoded
  obtain ⟨t, effect⟩ := exec_answers_next i { s with hostIn := rest }
  obtain ⟨r, responding⟩ := Effect_responds (exec_effect effect)
  refine ⟨t, r, effect, responding, ?_⟩
  simp only [step_command idle next, transact, decoded, effect, takeResponse_of_responding responding,
    exec_keeps_taken effect]

end Sys2Proof.Machine

/-! PROOFS. Rotation and scrambler (O9, O10): where `ROTL64` moves each bit, and that it undoes its complement. -/

namespace Sys2Proof.Machine

section Rotation
variable {k : Nat} (h : 0 < k ∧ k < 64)

/-- Bit `i` of a rotation by `k` is the bit `64 - k` places above it, cyclically (R100). -/
theorem getLsbD_rotl (x : Word) {i : Nat} (hi : i < 64) :
    (rotl x k h).getLsbD i = x.getLsbD ((i + (64 - k)) % 64) := by
  rw [rotl_eq, BitVec.getLsbD_or, BitVec.getLsbD_shiftLeft, BitVec.getLsbD_ushiftRight]
  by_cases hk : i < k
  · have source : (i + (64 - k)) % 64 = 64 - k + i := by omega
    simp [hk, source]
  · have source : (i + (64 - k)) % 64 = i - k := by omega
    simp [hk, hi, source, BitVec.getLsbD_of_ge x (64 - k + i) (by omega)]

/-- Rotations by `k` and by `64 - k` undo each other. -/
theorem rotl_rotl_complement (x : Word) (h' : 0 < 64 - k ∧ 64 - k < 64) : rotl (rotl x k h) (64 - k) h' = x := by
  apply BitVec.eq_of_getLsbD_eq
  intro i hi
  have source : ((i + (64 - (64 - k))) % 64 + (64 - k)) % 64 = i := by omega
  rw [getLsbD_rotl h' _ hi, getLsbD_rotl h _ (Nat.mod_lt _ (by decide)), source]

theorem rotl_bijective : Function.Bijective fun x => rotl x k h := by
  have h' : 0 < 64 - k ∧ 64 - k < 64 := by omega
  refine Function.bijective_iff_has_inverse.mpr
    ⟨fun x => rotl x (64 - k) h', fun x => rotl_rotl_complement h x h', fun x => ?_⟩
  have back : 64 - (64 - k) = k := by omega
  simpa only [back] using rotl_rotl_complement h' x (by omega)

end Rotation

/-- Settles O9: the rule's `(i - k) mod 64` is the source bit of `getLsbD_rotl`. -/
theorem rotlMovesEveryBit : Obligations.RotlMovesEveryBit := by
  unfold Obligations.RotlMovesEveryBit
  intro x k h
  refine ⟨rotl_eq x k h, fun i hi => ?_⟩
  have source : (((i : Int) - (k : Int)) % 64).toNat = (i + (64 - k)) % 64 := by omega
  rw [source, getLsbD_rotl h x hi]

/-- Settles O10: `SCR` multiplies by 5, rotates and multiplies by 9 (`scr_eq`), three bijections; the rule's values by
evaluation. -/
theorem scramblerIsABijection : Obligations.ScramblerIsABijection := by
  unfold Obligations.ScramblerIsABijection
  have five := Units.mulRight_bijective (Units.mkOfMulEqOne (5 : Word) 0xcccccccccccccccd (by decide))
  have nine := Units.mulRight_bijective (Units.mkOfMulEqOne (9 : Word) 0x8e38e38e38e38e39 (by decide))
  exact ⟨nine.comp ((rotl_bijective (k := 7) (by decide)).comp five),
    by decide, by decide, by decide, by decide, by decide⟩

end Sys2Proof.Machine

/-! PROOFS. The step and the jump algorithm as linear maps (O12 to O16): a step that annihilates a polynomial with constant
term 1 is invertible; the jump algorithm is a sum of powers of the step, so it is linear; and on the tables of the
hardware it is one power of the step, so it is a bijection. -/

namespace Sys2Proof.Machine

section Linear
variable {W : Type} {xor : W → W → W} {zero : W} {advance : W → W} (h : StepLaws xor zero advance)
include h

theorem StepLaws_eq_of_xor_eq_zero {a b : W} (sum : xor a b = zero) : a = b := by
  rw [← h.xor_zero a, ← h.self b, ← h.assoc, sum, StepLaws_zero_xor h]

/-- A step that annihilates a polynomial with constant term 1 has the rest of the polynomial as its inverse. -/
theorem StepLaws_bijective {n p : Nat} (constant : p.testBit 0 = true)
    (annihilates : ∀ s, polyEval xor zero advance (n + 1) p s = zero) : Function.Bijective advance := by
  have inverse (s : W) : polyEval xor zero advance n (p >>> 1) (advance s) = s := by
    refine (StepLaws_eq_of_xor_eq_zero h ?_).symm
    simpa [polyEval, constant] using annihilates s
  refine Function.bijective_iff_has_inverse.mpr ⟨polyEval xor zero advance n (p >>> 1), inverse, fun s => ?_⟩
  rw [← polyEval_advance h, inverse]

theorem xorOfSteps_xor (table : List Word) (a b : W) (n : Nat) : xorOfSteps xor zero advance table (xor a b) n =
    xor (xorOfSteps xor zero advance table a n) (xorOfSteps xor zero advance table b n) := by
  induction n with
  | zero => exact (h.self zero).symm
  | succ n ih =>
    simp only [xorOfSteps_succ, ih, StepLaws_iterate_xor h]
    split
    · exact StepLaws_swap h _ _ _ _
    · rfl

theorem xorOfSteps_zero (table : List Word) (n : Nat) : xorOfSteps xor zero advance table zero n = zero := by
  induction n with
  | zero => rfl
  | succ n ih => simp [xorOfSteps_succ, ih, StepLaws_iterate_zero h, h.self]

/-- The polynomial `x`, which is the number 2, has the step as its value. -/
theorem polyEval_two {n : Nat} (s : W) : polyEval xor zero advance (n + 2) 2 s = advance s := by
  simp [polyEval, polyEval_zero h, h.xor_zero, StepLaws_zero_xor h]

end Linear

theorem tablePoly_cons (t : Word) (rest : List Word) : tablePoly (t :: rest) = 2 ^ 64 * tablePoly rest + t.toNat := by
  rw [Nat.mul_comm]; rfl

/-- The bit that the jump machine reads for `JIDX = i` is coefficient `i` of the table's polynomial (R111, R112). -/
theorem tableBit_eq_testBit (table : List Word) (i : Nat) : tableBit table i = (tablePoly table).testBit i := by
  induction table generalizing i with
  | nil => simp [tableBit, tablePoly]
  | cons t rest ih =>
    rw [tablePoly_cons, Nat.testBit_two_pow_mul_add _ t.isLt]
    split
    case isTrue first =>
      simp [tableBit, Nat.div_eq_of_lt first, Nat.mod_eq_of_lt first, BitVec.getLsbD]
    case isFalse later =>
      have word : i / 64 = (i - 64) / 64 + 1 := by omega
      have bit : i % 64 = (i - 64) % 64 := by omega
      rw [← ih]
      simp [tableBit, word, bit]

/-- A table that is `x` squared `k` times modulo a polynomial that the step annihilates jumps by 2^k steps. The polynomial's
degree `N + 2` is more than that of `x`. -/
theorem xorOfSteps_eq_iterate {W : Type} {xor : W → W → W} {zero : W} {advance : W → W}
    (h : StepLaws xor zero advance) {N p k : Nat} {table : List Word} (bound : p < 2 ^ (N + 3))
    (leading : p.testBit (N + 2) = true) (annihilates : ∀ s, polyEval xor zero advance (N + 3) p s = zero)
    (power : squares (N + 2) p k 2 = tablePoly table) (s : W) :
    xorOfSteps xor zero advance table s (N + 2) = advance^[2 ^ k] s := by
  have x : 2 < 2 ^ (N + 2) := by have := Nat.two_pow_pos N; rw [Nat.pow_add]; omega
  rw [xorOfSteps_eq_polyEval h table (tablePoly table) _ s (fun i _ => tableBit_eq_testBit table i), ← power,
    polyEval_squares h bound leading annihilates x (m := 1) (polyEval_two h), Nat.one_mul]

theorem advance256_bijective : Function.Bijective advance256 :=
  StepLaws_bijective stepLaws256 (by decide) charPoly256_step

theorem advance128_bijective : Function.Bijective advance128 :=
  StepLaws_bijective stepLaws128 (by decide) charPoly128_step

/-- The distance of each jump, as a power of 2 (R112). -/
def distance256 : JumpKind → Nat
  | .short => 128
  | .long => 192

/-- The distance of each G128 jump, as a power of 2. -/
def distance128 : JumpKind → Nat
  | .short => 64
  | .long => 96

theorem squares_eq_table256 (tab : JumpKind) :
    squares 256 charPoly256 (distance256 tab) 2 = tablePoly (table256 tab) := by
  cases tab <;> decide +kernel

theorem squares_eq_table128 (tab : JumpKind) :
    squares 128 charPoly128 (distance128 tab) 2 = tablePoly (table128 tab) := by
  cases tab <;> decide +kernel

theorem jump256_eq_iterate (tab : JumpKind) (s : Words256) :
    jump256 s (table256 tab) = advance256^[2 ^ distance256 tab] s := by
  rw [jump256_eq_xorOfSteps, table256_length]
  exact xorOfSteps_eq_iterate stepLaws256 (by decide +kernel) (by decide) charPoly256_step (squares_eq_table256 tab) s

theorem jump128_eq_iterate (tab : JumpKind) (s : Words128) :
    jump128 s (table128 tab) = advance128^[2 ^ distance128 tab] s := by
  rw [jump128_eq_xorOfSteps, table128_length]
  exact xorOfSteps_eq_iterate stepLaws128 (by decide) (by decide) charPoly128_step (squares_eq_table128 tab) s

theorem jump256_bijective (tab : JumpKind) : Function.Bijective fun s => jump256 s (table256 tab) := by
  simpa only [jump256_eq_iterate] using advance256_bijective.iterate _

theorem jump128_bijective (tab : JumpKind) : Function.Bijective fun s => jump128 s (table128 tab) := by
  simpa only [jump128_eq_iterate] using advance128_bijective.iterate _

theorem jump256_zero (table : List Word) : jump256 zero256 table = zero256 := by
  rw [jump256_eq_xorOfSteps, xorOfSteps_zero stepLaws256]

theorem jump128_zero (table : List Word) : jump128 zero128 table = zero128 := by
  rw [jump128_eq_xorOfSteps, xorOfSteps_zero stepLaws128]

theorem jump256_ne_zero (tab : JumpKind) {s : Words256} (ne : s ≠ zero256) : jump256 s (table256 tab) ≠ zero256 :=
  jump256_zero (table256 tab) ▸ (jump256_bijective tab).injective.ne ne

theorem jump128_ne_zero (tab : JumpKind) {s : Words128} (ne : s ≠ zero128) : jump128 s (table128 tab) ≠ zero128 :=
  jump128_zero (table128 tab) ▸ (jump128_bijective tab).injective.ne ne

section Seeds
variable (k s0 : Word)

/-- A zero seed leaves its own word 0 and the literal in word 1. -/
theorem seedc256Words_ne_zero : seedc256Words s0 ≠ zero256 := by
  intro zero
  obtain ⟨rfl, w1, -, -⟩ := Words256.mk.inj zero
  exact absurd w1 (by decide)

theorem seedm256Words_ne_zero : seedm256Words k s0 ≠ zero256 := by
  intro zero
  obtain ⟨rfl, w1, -, -⟩ := Words256.mk.inj zero
  exact absurd w1 (by decide)

theorem seedc128Words_ne_zero : seedc128Words s0 ≠ zero128 := by
  intro zero
  obtain ⟨rfl, w1⟩ := Words128.mk.inj zero
  exact absurd w1 (by decide)

theorem seedm128Words_ne_zero : seedm128Words s0 ≠ zero128 := by
  intro zero
  obtain ⟨rfl, w1⟩ := Words128.mk.inj zero
  exact absurd w1 (by decide)

end Seeds

/-- Settles O12: each step annihilates its characteristic polynomial, whose constant term is 1. -/
theorem stepsAreInvertible : Obligations.StepsAreInvertible := ⟨advance256_bijective, advance128_bijective⟩

/-- Settles O13: `JUMPALG` iteration by iteration (`jumpAlg_eq_xorOfSteps`), for each engine. -/
theorem jumpXorsTheStepsOfTheSetBits : Obligations.JumpXorsTheStepsOfTheSetBits :=
  ⟨jump256_eq_xorOfSteps, jump128_eq_xorOfSteps⟩

/-- Settles O14: a sum of powers of the linear step is linear. -/
theorem jumpIsLinear : Obligations.JumpIsLinear := by
  unfold Obligations.JumpIsLinear
  refine ⟨fun a b table => ?_, fun a b table => ?_, jump256_zero, jump128_zero⟩
  · simp only [jump256_eq_xorOfSteps, xorOfSteps_xor stepLaws256]
  · simp only [jump128_eq_xorOfSteps, xorOfSteps_xor stepLaws128]

/-- Settles O15: the kernel squares `x` to each table's polynomial, modulo the characteristic polynomial. -/
theorem jumpsArePowersOfTheStep : Obligations.JumpsArePowersOfTheStep :=
  ⟨jump256_eq_iterate .short, jump256_eq_iterate .long, jump128_eq_iterate .short, jump128_eq_iterate .long⟩

/-- Settles O16: a jump is a power of a bijection and keeps the zero state, and no seed derives the zero state. -/
theorem jumpsKeepNonZeroStates : Obligations.JumpsKeepNonZeroStates :=
  ⟨jump256_bijective, jump128_bijective, fun tab _ => jump256_ne_zero tab, fun tab _ => jump128_ne_zero tab,
    fun _ s0 => ⟨_, rfl, jump256_ne_zero .short (seedc256Words_ne_zero s0)⟩,
    fun _ s0 => ⟨_, rfl, jump128_ne_zero .short (seedc128Words_ne_zero s0)⟩,
    fun _ s0 => ⟨_, rfl, seedm256Words_ne_zero _ s0⟩, fun _ s0 => ⟨_, rfl, seedm128Words_ne_zero s0⟩⟩

end Sys2Proof.Machine

/-! PROOFS. The jump machine on its own (O50): the edges that start it, and one iteration an edge whatever the other ports
hold. -/

namespace Sys2Proof.Machine

section Start
variable {c : Command} {s : State}

/-- Accepting a command whose word is that of `i` starts `i` with the operands offered. -/
theorem acceptCommand_of_word {i : Instr} (word : c.word = (encode i).word) :
    acceptCommand c s = startCommand (i.withOperands c.din0 c.din1 c.din2 c.din3) s := by
  rw [acceptCommand, decode_eq_withOperands word]

theorem startCommand_jump256 (seeded : s.seeded256 = true) :
    startCommand .jump256 s = { s with phase := .jumping256 false .short 0 zero256 } := if_pos seeded

theorem startCommand_ljump256 (seeded : s.seeded256 = true) :
    startCommand .ljump256 s = { s with phase := .jumping256 false .long 0 zero256 } := if_pos seeded

theorem startCommand_jump128 (seeded : s.seeded128 = true) :
    startCommand .jump128 s = { s with phase := .jumping128 false .short 0 zero128 } := if_pos seeded

theorem startCommand_ljump128 (seeded : s.seeded128 = true) :
    startCommand .ljump128 s = { s with phase := .jumping128 false .long 0 zero128 } := if_pos seeded

end Start

section Edges
variable {s : State}

@[simp] theorem runEdges_nil : runEdges [] s = s := rfl

theorem runEdges_concat (ps : List PortIn) (p : PortIn) : runEdges (ps ++ [p]) s = clockEdge p (runEdges ps s) := by
  simp [runEdges]

variable {p : PortIn} (noReset : p.rst = false)
include noReset

theorem clockEdge_loading256 {w : Words256} (loading : s.phase = .loading256 w) :
    clockEdge p s = { s with s256 := w, phase := .jumping256 true .short 0 zero256 } := by
  simp [clockEdge, noReset, loading]

theorem clockEdge_loading128 {w : Words128} (loading : s.phase = .loading128 w) :
    clockEdge p s = { s with s128 := w, phase := .jumping128 true .short 0 zero128 } := by
  simp [clockEdge, noReset, loading]

theorem clockEdge_jumping256 {load : Bool} {tab : JumpKind} {idx : Fin 256} {acc : Words256}
    (jumping : s.phase = .jumping256 load tab idx acc) : clockEdge p s = jumpCycle256 load tab idx acc s := by
  simp [clockEdge, noReset, jumping]

theorem clockEdge_jumping128 {load : Bool} {tab : JumpKind} {idx : Fin 128} {acc : Words128}
    (jumping : s.phase = .jumping128 load tab idx acc) : clockEdge p s = jumpCycle128 load tab idx acc s := by
  simp [clockEdge, noReset, jumping]

end Edges

section Run
variable {s : State} {load : Bool} {tab : JumpKind} {ps : List PortIn}

/-- As many edges as `m`, from the start of a jump, do the iterations of bits 0 to `m - 1`. -/
theorem runEdges_jumping256 (start : s.phase = .jumping256 load tab 0 zero256) (noReset : ∀ p ∈ ps, p.rst = false)
    (m : Fin 256) (count : ps.length = m.val) : runEdges ps s = inJump256 load s tab s.s256 m := by
  induction ps using List.reverseRecOn generalizing m with
  | nil =>
    obtain rfl : m = 0 := Fin.ext count.symm
    simp [inJump256, xorOfSteps, ← start]
  | append_singleton ps p ih =>
    simp only [List.mem_append, List.mem_singleton] at noReset
    have more : ps.length + 1 < 256 := by simp at count; omega
    obtain rfl : m = ⟨ps.length + 1, more⟩ := Fin.ext (by simp [← count])
    rw [runEdges_concat, ih (fun q hq => noReset q (.inl hq)) ⟨ps.length, by omega⟩ rfl,
      clockEdge_jumping256 (noReset p (.inr rfl)) rfl, jumpCycle256_inJump256]

theorem runEdges_jumping128 (start : s.phase = .jumping128 load tab 0 zero128) (noReset : ∀ p ∈ ps, p.rst = false)
    (m : Fin 128) (count : ps.length = m.val) : runEdges ps s = inJump128 load s tab s.s128 m := by
  induction ps using List.reverseRecOn generalizing m with
  | nil =>
    obtain rfl : m = 0 := Fin.ext count.symm
    simp [inJump128, xorOfSteps, ← start]
  | append_singleton ps p ih =>
    simp only [List.mem_append, List.mem_singleton] at noReset
    have more : ps.length + 1 < 128 := by simp at count; omega
    obtain rfl : m = ⟨ps.length + 1, more⟩ := Fin.ext (by simp [← count])
    rw [runEdges_concat, ih (fun q hq => noReset q (.inl hq)) ⟨ps.length, by omega⟩ rfl,
      clockEdge_jumping128 (noReset p (.inr rfl)) rfl, jumpCycle128_inJump128]

/-- The edge of the last iteration writes the jump of the words at the start, and the command responds. -/
theorem runEdges_jumping256_last (start : s.phase = .jumping256 load tab 0 zero256)
    (noReset : ∀ p ∈ ps, p.rst = false) (count : ps.length = 256) : runEdges ps s =
    respond .done { s with s256 := jump256 s.s256 (table256 tab), seeded256 := s.seeded256 || load } := by
  obtain rfl | ⟨ps, p, rfl⟩ := ps.eq_nil_or_concat'
  · cases count
  · simp only [List.mem_append, List.mem_singleton] at noReset
    have before : ps.length = 255 := by simpa using count
    rw [runEdges_concat, runEdges_jumping256 start (fun q hq => noReset q (.inl hq)) 255 before,
      clockEdge_jumping256 (noReset p (.inr rfl)) rfl, jumpCycle256_last load s tab s.s256 rfl]

theorem runEdges_jumping128_last (start : s.phase = .jumping128 load tab 0 zero128)
    (noReset : ∀ p ∈ ps, p.rst = false) (count : ps.length = 128) : runEdges ps s =
    respond .done { s with s128 := jump128 s.s128 (table128 tab), seeded128 := s.seeded128 || load } := by
  obtain rfl | ⟨ps, p, rfl⟩ := ps.eq_nil_or_concat'
  · cases count
  · simp only [List.mem_append, List.mem_singleton] at noReset
    have before : ps.length = 127 := by simpa using count
    rw [runEdges_concat, runEdges_jumping128 start (fun q hq => noReset q (.inl hq)) 127 before,
      clockEdge_jumping128 (noReset p (.inr rfl)) rfl, jumpCycle128_last load s tab s.s128 rfl]

end Run

/-- Settles O50: the edges that start the machine, its run edge by edge (`runEdges_jumping256`), and its last edge. -/
theorem jumpMachineRunsOneBitAnEdge : Obligations.JumpMachineRunsOneBitAnEdge := by
  unfold Obligations.JumpMachineRunsOneBitAnEdge
  refine ⟨fun p s idle noReset valid => ?_, fun p s noReset => ?_, fun s load tab ps start noReset => ?_,
    fun s load tab ps start noReset => ?_⟩
  · rw [clockEdge_accepts noReset idle valid]
    exact ⟨fun word seeded => (acceptCommand_of_word (i := .jump256) word).trans (startCommand_jump256 seeded),
      fun word seeded => (acceptCommand_of_word (i := .ljump256) word).trans (startCommand_ljump256 seeded),
      fun word seeded => (acceptCommand_of_word (i := .jump128) word).trans (startCommand_jump128 seeded),
      fun word seeded => (acceptCommand_of_word (i := .ljump128) word).trans (startCommand_ljump128 seeded)⟩
  · exact ⟨fun _ => clockEdge_loading256 noReset, fun _ => clockEdge_loading128 noReset⟩
  · refine ⟨fun m count => ?_, runEdges_jumping256_last start noReset⟩
    rw [runEdges_jumping256 start noReset m count]
    exact ⟨rfl, rfl⟩
  · refine ⟨fun m count => ?_, runEdges_jumping128_last start noReset⟩
    rw [runEdges_jumping128 start noReset m count]
    exact ⟨rfl, rfl⟩

end Sys2Proof.Machine

/-! PROOFS. What each command does (O11, O17, O18, O20, O22, O23, O25, O26, O30): the state it leaves as one record update,
for words already computed, so that a rule's general form and its example follow from one lemma. -/

namespace Sys2Proof.Machine

section Results
variable {s : State}

theorem exec_next256_of_step {out : Word} {w : Words256} (seeded : s.seeded256 = true)
    (stepped : step256 s.s256 = (out, w)) :
    exec .next256 s = .next { s with s256 := w, phase := .responding (.data out) } := by
  rw [exec, execNext256_seeded seeded, stepped]; rfl

theorem exec_next256_answers {out : Word} (seeded : s.seeded256 = true) (answer : scr s.s256.s1 = out) :
    ∃ t, exec .next256 s = .next t ∧ t.phase = .responding (.data out) :=
  ⟨_, exec_next256_of_step seeded rfl, answer ▸ rfl⟩

theorem exec_next128_of_step {out : Word} {w : Words128} (seeded : s.seeded128 = true)
    (stepped : step128 s.s128 = (out, w)) :
    exec .next128 s = .next { s with s128 := w, phase := .responding (.data out) } := by
  rw [exec, execNext128_seeded seeded, stepped]; rfl

theorem exec_jump256_of_jump {w : Words256} (seeded : s.seeded256 = true) (jumped : jump256 s.s256 jumpTable256 = w) :
    exec .jump256 s = .next { s with s256 := w, phase := .responding .done } := jumped ▸ execJump256_seeded seeded

theorem exec_ljump256_of_jump {w : Words256} (seeded : s.seeded256 = true) (jumped : jump256 s.s256 ljumpTable256 = w) :
    exec .ljump256 s = .next { s with s256 := w, phase := .responding .done } := jumped ▸ execLjump256_seeded seeded

theorem exec_jump128_of_jump {w : Words128} (seeded : s.seeded128 = true) (jumped : jump128 s.s128 jumpTable128 = w) :
    exec .jump128 s = .next { s with s128 := w, phase := .responding .done } := jumped ▸ execJump128_seeded seeded

theorem exec_ljump128_of_jump {w : Words128} (seeded : s.seeded128 = true) (jumped : jump128 s.s128 ljumpTable128 = w) :
    exec .ljump128 s = .next { s with s128 := w, phase := .responding .done } := jumped ▸ execLjump128_seeded seeded

variable (s)

theorem exec_loadj256_of_jump {w0 w1 w2 w3 : Word} {w : Words256} (jumped : jump256 ⟨w0, w1, w2, w3⟩ jumpTable256 = w) :
    exec (.loadj256 w0 w1 w2 w3) s = .next { s with s256 := w, seeded256 := true, phase := .responding .done } :=
  jumped ▸ rfl

theorem exec_seedc256_of_jump {s0 : Word} {w : Words256} (jumped : jump256 (seedc256Words s0) jumpTable256 = w) :
    exec (.seedc256 s0) s = .next { s with s256 := w, seeded256 := true, phase := .responding .done } := jumped ▸ rfl

theorem exec_seedc128_of_jump {s0 : Word} {w : Words128} (jumped : jump128 (seedc128Words s0) jumpTable128 = w) :
    exec (.seedc128 s0) s = .next { s with s128 := w, seeded128 := true, phase := .responding .done } := jumped ▸ rfl

theorem exec_seedm256_of_words {s0 : Word} {w : Words256} (derived : seedm256Words Config.kSeedm256 s0 = w) :
    exec (.seedm256 s0) s = .next { s with s256 := w, seeded256 := true, phase := .responding .done } := derived ▸ rfl

end Results

section Unseeded
variable {i : Instr} {s : State} (needs : needsSeed i = true) (unseeded : engineSeeded i.engine s = false)
include needs unseeded

/-- `UNSEEDED` is raised by the six commands that need a seeded engine (60_exceptions.md R235). -/
theorem exec_of_unseeded : exec i s = .next (raise .unseeded (encode i).word s) := by
  cases i
  case next256 => exact execNext256_unseeded unseeded
  case jump256 => exact execJump256_unseeded unseeded
  case ljump256 => exact execLjump256_unseeded unseeded
  case next128 => exact execNext128_unseeded unseeded
  case jump128 => exact execJump128_unseeded unseeded
  case ljump128 => exact execLjump128_unseeded unseeded
  all_goals cases needs

theorem exec_of_unseeded_explicit : exec i s = .next { s with
    err := true
    ecode := if s.err then s.ecode else 2
    ecmd := if s.err then s.ecmd else (encode i).word
    phase := .responding (.error 2) } :=
  (exec_of_unseeded needs unseeded).trans (congrArg _ (raise_explicit _ _ _))

end Unseeded

/-- V256-3, of `jump256` and `loadj256` (R141, R146). -/
theorem jump256_one_two_three_four : jump256 ⟨1, 2, 3, 4⟩ jumpTable256 =
    ⟨0x8c7a153956b5f3d1, 0x701f1a713401d85e, 0x6527f66a65469085, 0x8386b786c4408050⟩ := by decide +kernel

/-- Settles O11: the order of R131 and R181, with the XORs rearranged. -/
theorem stepsInClosedForm : Obligations.StepsInClosedForm := by
  unfold Obligations.StepsInClosedForm
  refine ⟨fun a b c d => ?_, fun a b => ?_⟩
  · simp only [step256, BitVec.xor_assoc]
  · simp only [step128, BitVec.xor_comm b a]

/-- Settles O17: the step by evaluation, the jump because it is linear (`jump256_zero`); the words written are those that
stood there. -/
theorem allZeroIsTheFixedPoint : Obligations.AllZeroIsTheFixedPoint := by
  unfold Obligations.AllZeroIsTheFixedPoint
  have step_zero256 : step256 zero256 = (0, zero256) := by decide
  have step_zero128 : step128 zero128 = (0, zero128) := by decide
  refine ⟨step_zero256, step_zero128, fun s seeded zero => ?_, fun s seeded zero => ?_⟩
  · have jumped (table : List Word) : jump256 s.s256 table = s.s256 := zero ▸ jump256_zero table
    exact ⟨exec_next256_of_step seeded (zero ▸ step_zero256), exec_jump256_of_jump seeded (jumped _),
      exec_ljump256_of_jump seeded (jumped _)⟩
  · have jumped (table : List Word) : jump128 s.s128 table = s.s128 := zero ▸ jump128_zero table
    exact ⟨exec_next128_of_step seeded (zero ▸ step_zero128), exec_jump128_of_jump seeded (jumped _),
      exec_ljump128_of_jump seeded (jumped _)⟩

/-- Settles O18: the written-out step is `step256` with `scr` and `rotl` unfolded; the corners are its values. -/
theorem next256Result : Obligations.Next256Result := by
  unfold Obligations.Next256Result
  refine ⟨decode_encode_word .next256, fun s a b c d seeded words => ?_, fun s unseeded => ?_, fun s seeded words => ?_,
    fun s seeded words => ?_, fun s seeded words => ?_⟩
  · exact exec_next256_of_step seeded (words ▸ rfl)
  · exact exec_of_unseeded_explicit (i := .next256) rfl unseeded
  · obtain ⟨-, -, zero, -⟩ := allZeroIsTheFixedPoint
    exact (zero s seeded words).1
  · exact exec_next256_of_step seeded (words ▸ by decide)
  · exact exec_next256_answers seeded (by rw [words]; decide)

/-- Settles O20: `jumpTable256` and `ljumpTable256` are the tables written out; the kernel evaluates the examples' jumps. -/
theorem jumpsOfG256Result : Obligations.JumpsOfG256Result := by
  unfold Obligations.JumpsOfG256Result
  have ljumped : jump256 ⟨1, 2, 3, 4⟩ ljumpTable256 =
    ⟨0x096a8eb71295a400, 0xdbf84991e50f4516, 0x534ee745810d2a0e, 0x31655ca1a2215bf1⟩ := by decide +kernel
  refine ⟨fun s seeded => ?_, fun s unseeded => ?_, fun s seeded words => ?_⟩
  · exact ⟨exec_jump256_of_jump seeded rfl, exec_ljump256_of_jump seeded rfl⟩
  · exact ⟨exec_of_unseeded_explicit (i := .jump256) rfl unseeded,
      exec_of_unseeded_explicit (i := .ljump256) rfl unseeded⟩
  · exact ⟨exec_jump256_of_jump seeded (words ▸ jump256_one_two_three_four),
      exec_ljump256_of_jump seeded (words ▸ ljumped)⟩

/-- Settles O22: the loads have no condition, and `STATUS` mirrors the seeded bits (`getLsbD_status`). -/
theorem loadResult : Obligations.LoadResult := by
  unfold Obligations.LoadResult
  exact ⟨fun d0 d1 d2 d3 => decode_encode_word (.load256 d0 d1 d2 d3) d0 d1 d2 d3,
    fun d0 d1 d2 d3 => decode_encode_word (.load128 d0 d1) d0 d1 d2 d3, fun _ _ _ _ _ => rfl, fun _ _ _ => rfl,
    fun _ _ _ _ _ => ⟨_, rfl, getLsbD_status _ 1⟩, fun _ _ _ => ⟨_, rfl, getLsbD_status _ 2⟩⟩

/-- Settles O23: the all-zero operands by `jump256_zero`, the example by evaluation. -/
theorem loadj256Result : Obligations.Loadj256Result := by
  unfold Obligations.Loadj256Result
  refine ⟨fun d0 d1 d2 d3 => decode_encode_word (.loadj256 d0 d1 d2 d3) d0 d1 d2 d3, fun s w0 w1 w2 w3 => ?_,
    fun s => ?_, fun s => ?_, fun s seeded words => ?_⟩
  · exact exec_loadj256_of_jump s rfl
  · exact exec_loadj256_of_jump s (jump256_zero jumpTable256)
  · exact exec_loadj256_of_jump s jump256_one_two_three_four
  · exact exec_next256_answers seeded (by rw [words]; decide)

/-- A word and what is derived from it are not both 0 if 0 derives another word. -/
theorem ne_zero_or_derived_ne_zero {derive : Word → Word} (zero : derive 0 ≠ 0) (x : Word) : x ≠ 0 ∨ derive x ≠ 0 :=
  (ne_or_eq x 0).imp_right (by rintro rfl; exact zero)

/-- Settles O25: word 1 that a zero seed derives is not 0; the kernel evaluates the examples' jumps. -/
theorem seedcResult : Obligations.SeedcResult := by
  unfold Obligations.SeedcResult
  refine ⟨fun s s0 => exec_seedc256_of_jump s rfl, ne_zero_or_derived_ne_zero (by decide), fun s => ?_,
    fun s s0 => exec_seedc128_of_jump s rfl, ne_zero_or_derived_ne_zero (by decide), fun s => ?_⟩
  · exact exec_seedc256_of_jump s (by decide +kernel)
  · exact exec_seedc128_of_jump s (by decide +kernel)

/-- Settles O26: the derivation of R152 with `rotl` unfolded; in the example all but the XOR with the opaque `K_SEEDM256`
is evaluated. -/
theorem seedm256Result : Obligations.Seedm256Result := by
  unfold Obligations.Seedm256Result
  refine ⟨fun d0 d1 d2 d3 => decode_encode_word (.seedm256 d0) d0 d1 d2 d3, ?_, seedm256Words_ne_zero, fun s => ?_⟩
  · rintro s s0 _ _ rfl rfl
    rfl
  · have w1 : (42 : Word) ^^^ seedm256Mask1 = 0xf0ff00dd00f0f026 := by decide
    have w2 : rotl 0xf0ff00dd00f0f026 45 ^^^ seedm256Mask2 = 0xe1fbdeef3d14a0e9 := by decide
    have w3 : rotl (0xe1fbdeef3d14a0e9 + 0xf0ff00dd00f0f026) 17 = 0xbf987c0b221fa5f5 := by decide
    exact exec_seedm256_of_words s (by simp only [seedm256Words, w1, w2, w3])

/-- Settles O30: the range reads have no condition and write no state. -/
theorem rangeReadsResult : Obligations.RangeReadsResult := by
  unfold Obligations.RangeReadsResult
  refine ⟨fun d0 d1 d2 d3 => ?_, fun s => ⟨rfl, rfl, rfl, rfl⟩⟩
  have row (i : Instr) := decode_encode_word i d0 d1 d2 d3
  exact ⟨row .rdmin256, row .rdmax256, row .rdmin128, row .rdmax128⟩

end Sys2Proof.Machine

/-! PROOFS. `SEEDE256` (O28): the provider after `k` draws, and a `SEEDE` up to its first failed draw. -/

namespace Sys2Proof.Machine

/-- The provider of `s` once it has answered `k` draws: an answer it had ready for each, then a free value for each (R31). -/
def providerAfter (s : State) (k : Nat) : Provider := (s.entIn.drop k, s.free + (k - s.entIn.length))

section Draws
variable (s : State)

@[simp] theorem providerAfter_zero : providerAfter s 0 = provider s := by simp [providerAfter, provider]

/-- The draw after `k` others is answered by `drawAnswer`. -/
theorem entropyDraw_providerAfter (k : Nat) :
    entropyDraw (providerAfter s k) = (drawAnswer s k, providerAfter s (k + 1)) := by
  unfold providerAfter drawAnswer
  rcases Nat.lt_or_ge k s.entIn.length with ready | used
  · have noFree : k + 1 - s.entIn.length = k - s.entIn.length := by omega
    rw [List.drop_eq_getElem_cons ready, List.getElem?_eq_getElem ready, noFree]; rfl
  · have oneMore : k + 1 - s.entIn.length = k - s.entIn.length + 1 := by omega
    rw [List.drop_of_length_le used, List.drop_of_length_le (by omega), List.getElem?_eq_none used, oneMore]; rfl

variable {s} {W : Type} {onWord : Word → Provider → Option W × Provider} {j : Nat}

theorem drawThen_of_ok {w : Word} (drawn : drawAnswer s j = .ok w) :
    drawThen (providerAfter s j) onWord = onWord w (providerAfter s (j + 1)) := by
  rw [drawThen, entropyDraw_providerAfter, drawn]

theorem drawThen_of_fail (failed : drawAnswer s j = .fail) :
    drawThen (providerAfter s j) onWord = (none, providerAfter s (j + 1)) := by
  rw [drawThen, entropyDraw_providerAfter, failed]

theorem draw256_of_words {w0 w1 w2 w3 : Word} (d0 : drawAnswer s 0 = .ok w0) (d1 : drawAnswer s 1 = .ok w1)
    (d2 : drawAnswer s 2 = .ok w2) (d3 : drawAnswer s 3 = .ok w3) :
    draw256 (provider s) = (some ⟨w0, w1, w2, w3⟩, providerAfter s 4) := by
  rw [← providerAfter_zero, draw256, drawThen_of_ok d0, drawThen_of_ok d1, drawThen_of_ok d2, drawThen_of_ok d3]

variable {k : Nat} (words : ∀ j < k, ∃ w, drawAnswer s j = .ok w) (failed : drawAnswer s k = .fail)
include words failed

/-- Draw `j` of a `SEEDE` whose draw `k` is the first to fail: it is that draw, or it gives a word and the draws from
`j + 1` on end at `k`. -/
theorem drawThen_ends_at (hj : j ≤ k)
    (later : j < k → ∀ w, onWord w (providerAfter s (j + 1)) = (none, providerAfter s (k + 1))) :
    drawThen (providerAfter s j) onWord = (none, providerAfter s (k + 1)) := by
  rcases hj.eq_or_lt with rfl | before
  · exact drawThen_of_fail failed
  · obtain ⟨w, drawn⟩ := words j before
    rw [drawThen_of_ok drawn, later before]

theorem draw256_ends_at (hk : k < 4) : draw256 (provider s) = (none, providerAfter s (k + 1)) := by
  rw [← providerAfter_zero, draw256]
  refine drawThen_ends_at words failed (Nat.zero_le k) fun after0 _ => ?_
  refine drawThen_ends_at words failed after0 fun after1 _ => ?_
  refine drawThen_ends_at words failed after1 fun after2 _ => ?_
  exact drawThen_ends_at words failed after2 fun after3 _ => absurd hk (by omega)

end Draws

section Failed
variable {s : State} {p : Provider}

theorem exec_seede256_of_fail (failed : draw256 (provider s) = (none, p)) : exec .seede256 s = .next { s with
    seeded256 := false
    err := true
    ecode := if s.err then s.ecode else 3
    ecmd := if s.err then s.ecmd else 0x07
    phase := .responding (.error 3)
    entIn := p.1
    free := p.2 } := (execSeede256_failed failed).trans (congrArg _ (raise_explicit _ _ _))

theorem exec_seede128_of_fail (failed : draw128 (provider s) = (none, p)) : exec .seede128 s = .next { s with
    seeded128 := false
    err := true
    ecode := if s.err then s.ecode else 3
    ecmd := if s.err then s.ecmd else 0x87
    phase := .responding (.error 3)
    entIn := p.1
    free := p.2 } := (execSeede128_failed failed).trans (congrArg _ (raise_explicit _ _ _))

end Failed

/-- Settles O28: the four draws with no failure (`draw256_of_words`), and up to the first that fails (`draw256_ends_at`). -/
theorem seede256Result : Obligations.Seede256Result := by
  unfold Obligations.Seede256Result
  refine ⟨decode_encode_word .seede256, fun s w0 w1 w2 w3 d0 d1 d2 d3 => ?_, fun s k hk words failed => ?_⟩
  · exact execSeede256_drawn (draw256_of_words d0 d1 d2 d3)
  · exact exec_seede256_of_fail (draw256_ends_at words failed hk)

end Sys2Proof.Machine

/-! PROOFS. Runs of commands (O41, O43): the response each command adds, what two blocks must share for one command to
answer the same on both, and `NEXT` over and over. -/

namespace Sys2Proof.Machine

/-- The words of an engine. -/
def engineWords : Engine → State → Words256 ⊕ Words128
  | .g256, s => .inl s.s256
  | .g128, s => .inr s.s128

/-- What two blocks share for engine `e` to answer the same on both: the seeded bit, and the words where they can be
observed (60_exceptions.md R235). -/
structure SameEngine (e : Engine) (s t : State) : Prop where
  seeded : engineSeeded e s = engineSeeded e t
  words : engineSeeded e s = true → engineWords e s = engineWords e t

/-- Taking the responses leaves the engines as they are. -/
theorem SameEngine.taken {e : Engine} {s t : State} (same : SameEngine e s t) (rs rs' : List Response) :
    SameEngine e { s with phase := .idle, taken := rs } { t with phase := .idle, taken := rs' } := by
  cases e <;> exact ⟨same.seeded, same.words⟩

/-- Command `i` gives one response on both blocks, and leaves them with the same engine. -/
def AnswersSame (i : Instr) (s t : State) : Prop :=
  ∃ s' t' r, exec i s = .next s' ∧ exec i t = .next t' ∧ s'.phase = .responding r ∧ t'.phase = .responding r ∧
    SameEngine i.engine s' t'

section Answers
variable {s t : State} {i : Instr}

@[simp] theorem engineSeeded_raise (e : Engine) (c : ErrorCause) (w : CmdWord) (s : State) :
    engineSeeded e (raise c w s) = engineSeeded e s := by cases e <;> simp [engineSeeded, raise]

/-- On an engine not seeded both blocks raise `UNSEEDED`; on a seeded one response and words come from the words before. -/
theorem answersSame_of_needsSeed (needs : needsSeed i = true) (same : SameEngine i.engine s t) : AnswersSame i s t := by
  have bits := same.seeded
  cases seeded : engineSeeded i.engine s with
  | false =>
    exact ⟨_, _, _, exec_of_unseeded needs seeded, exec_of_unseeded needs (bits ▸ seeded), rfl, rfl, by simpa using bits,
      by simp [seeded]⟩
  | true =>
    have seeded' := bits ▸ seeded
    have words := same.words seeded
    cases i
    case next256 =>
      exact ⟨_, _, _, exec_next256_of_step seeded rfl,
        exec_next256_of_step seeded' (congrArg step256 (Sum.inl.inj words).symm), rfl, rfl, bits, fun _ => rfl⟩
    case jump256 =>
      exact ⟨_, _, _, exec_jump256_of_jump seeded rfl,
        exec_jump256_of_jump seeded' (congrArg (jump256 · _) (Sum.inl.inj words).symm), rfl, rfl, bits, fun _ => rfl⟩
    case ljump256 =>
      exact ⟨_, _, _, exec_ljump256_of_jump seeded rfl,
        exec_ljump256_of_jump seeded' (congrArg (jump256 · _) (Sum.inl.inj words).symm), rfl, rfl, bits, fun _ => rfl⟩
    case next128 =>
      exact ⟨_, _, _, exec_next128_of_step seeded rfl,
        exec_next128_of_step seeded' (congrArg step128 (Sum.inr.inj words).symm), rfl, rfl, bits, fun _ => rfl⟩
    case jump128 =>
      exact ⟨_, _, _, exec_jump128_of_jump seeded rfl,
        exec_jump128_of_jump seeded' (congrArg (jump128 · _) (Sum.inr.inj words).symm), rfl, rfl, bits, fun _ => rfl⟩
    case ljump128 =>
      exact ⟨_, _, _, exec_ljump128_of_jump seeded rfl,
        exec_ljump128_of_jump seeded' (congrArg (jump128 · _) (Sum.inr.inj words).symm), rfl, rfl, bits, fun _ => rfl⟩
    all_goals cases needs

/-- `SEEDE256` on blocks whose providers give its draws the same answers. -/
theorem answersSame_seede256 (draws : drawsUsed 4 (provider s) = drawsUsed 4 (provider t)) :
    AnswersSame .seede256 s t := by
  have drawn : (draw256 (provider s)).1 = (draw256 (provider t)).1 := by rw [draw256_eq, draw256_eq, draws]
  rcases ds : draw256 (provider s) with ⟨o, p⟩
  rcases dt : draw256 (provider t) with ⟨o', q⟩
  obtain rfl : o = o' := by simpa [ds, dt] using drawn
  cases o with
  | none => exact ⟨_, _, _, exec_seede256_of_fail ds, exec_seede256_of_fail dt, rfl, rfl, rfl, nofun⟩
  | some w => exact ⟨_, _, _, execSeede256_drawn ds, execSeede256_drawn dt, rfl, rfl, rfl, fun _ => rfl⟩

/-- `SEEDE128` on blocks whose providers give its draws the same answers. -/
theorem answersSame_seede128 (draws : drawsUsed 2 (provider s) = drawsUsed 2 (provider t)) :
    AnswersSame .seede128 s t := by
  have drawn : (draw128 (provider s)).1 = (draw128 (provider t)).1 := by rw [draw128_eq, draw128_eq, draws]
  rcases ds : draw128 (provider s) with ⟨o, p⟩
  rcases dt : draw128 (provider t) with ⟨o', q⟩
  obtain rfl : o = o' := by simpa [ds, dt] using drawn
  cases o with
  | none => exact ⟨_, _, _, exec_seede128_of_fail ds, exec_seede128_of_fail dt, rfl, rfl, rfl, nofun⟩
  | some w => exact ⟨_, _, _, execSeede128_drawn ds, execSeede128_drawn dt, rfl, rfl, rfl, fun _ => rfl⟩

/-- A command answers the same on two blocks with the same engine, and a load command on any two, if its draws are given
the same answers. -/
theorem exec_answersSame (i : Instr) (start : isLoad i = true ∨ SameEngine i.engine s t)
    (draws : drawsUsed (wordsDrawn i) (provider s) = drawsUsed (wordsDrawn i) (provider t)) : AnswersSame i s t := by
  cases i
  case next256 | jump256 | ljump256 | next128 | jump128 | ljump128 =>
    exact answersSame_of_needsSeed rfl (start.resolve_left nofun)
  case rdmin256 | rdmax256 | rdmin128 | rdmax128 =>
    have same := start.resolve_left nofun
    exact ⟨_, _, _, rfl, rfl, rfl, rfl, same.seeded, same.words⟩
  case seede256 => exact answersSame_seede256 draws
  case seede128 => exact answersSame_seede128 draws
  all_goals exact ⟨_, _, _, rfl, rfl, rfl, rfl, rfl, fun _ => rfl⟩

end Answers

section Run
variable {s t : State} {i : Instr} {r : Response}

/-- A command of a list adds its response to those taken, and the rest runs from an idle block. -/
theorem runCommands_cons (is : List Instr) (next : exec i s = .next t) (responding : t.phase = .responding r) :
    runCommands (i :: is) s = runCommands is { t with phase := .idle, taken := r :: s.taken } := by
  rw [runCommands, next, nextOr, takeResponse_of_responding responding, exec_keeps_taken next]

theorem drawsOf_cons (is : List Instr) (next : exec i s = .next t) (responding : t.phase = .responding r) :
    drawsOf (i :: is) s = drawsUsed (wordsDrawn i) (provider s) ++
      drawsOf is { t with phase := .idle, taken := r :: s.taken } := by
  rw [drawsOf, next, nextOr, takeResponse_of_responding responding, exec_keeps_taken next]

/-- A list of commands of engine `e` gives the same responses on two blocks with the same engine `e`, or on any two if its
first command is a load, where the draws are given the same answers. -/
theorem runCommands_answersSame (e : Engine) (is : List Instr)
    (start : (∃ load ∈ is.head?, isLoad load = true) ∨ SameEngine e s t) (engine : ∀ i ∈ is, i.engine = e)
    (draws : drawsOf is s = drawsOf is t) :
    ∃ rs : List Response, rs.length = is.length ∧
      (runCommands is s).taken = rs ++ s.taken ∧ (runCommands is t).taken = rs ++ t.taken := by
  induction is generalizing s t with
  | nil => exact ⟨[], rfl, rfl, rfl⟩
  | cons i is ih =>
    obtain ⟨rfl, engine⟩ := List.forall_mem_cons.mp engine
    have here : drawsUsed (wordsDrawn i) (provider s) = drawsUsed (wordsDrawn i) (provider t) :=
      (drawsUsed_append_inj _ draws).1
    obtain ⟨s', t', r, execS, execT, respondS, respondT, same⟩ :=
      exec_answersSame i (start.imp_left (by simp)) here
    rw [drawsOf_cons is execS respondS, drawsOf_cons is execT respondT] at draws
    obtain ⟨rs, length, takenS, takenT⟩ :=
      ih (.inr (same.taken (r :: s.taken) (r :: t.taken))) engine (drawsUsed_append_inj _ draws).2
    refine ⟨rs ++ [r], by simp [length], ?_, ?_⟩
    · rw [runCommands_cons is execS respondS, takenS]; simp
    · rw [runCommands_cons is execT respondT, takenT]; simp

/-- Where `seeded` holds, `i` answers `answer` of the words and puts `advance` of them in their place. -/
def StepsWords {W : Type} (i : Instr) (words : State → W) (seeded : State → Bool) (advance : W → W)
    (answer : W → Response) : Prop :=
  ∀ s, seeded s = true → ∃ t, exec i s = .next t ∧ t.phase = .responding (answer (words s)) ∧
    ∀ taken, words { t with phase := .idle, taken := taken } = advance (words s) ∧
      seeded { t with phase := .idle, taken := taken } = true

theorem stepsWords_next256 :
    StepsWords .next256 State.s256 State.seeded256 advance256 fun w => .data (step256 w).1 :=
  fun _ seeded => ⟨_, exec_next256_of_step seeded rfl, rfl, fun _ => ⟨rfl, seeded⟩⟩

theorem stepsWords_next128 :
    StepsWords .next128 State.s128 State.seeded128 advance128 fun w => .data (step128 w).1 :=
  fun _ seeded => ⟨_, exec_next128_of_step seeded rfl, rfl, fun _ => ⟨rfl, seeded⟩⟩

/-- `k` times a command that steps the words: the words stepped `k` times, and the answers in order, latest first. -/
theorem runCommands_replicate {W : Type} {words : State → W} {seeded : State → Bool} {advance : W → W}
    {answer : W → Response} (one : StepsWords i words seeded advance answer) (k : Nat) (s : State)
    (start : seeded s = true) :
    words (runCommands (List.replicate k i) s) = advance^[k] (words s) ∧
    (runCommands (List.replicate k i) s).taken =
      ((List.range k).map fun j => answer (advance^[j] (words s))).reverse ++ s.taken := by
  induction k generalizing s with
  | zero => exact ⟨rfl, rfl⟩
  | succ k ih =>
    obtain ⟨t, next, responding, after⟩ := one s start
    obtain ⟨stepped, still⟩ := after (answer (words s) :: s.taken)
    obtain ⟨last, taken⟩ := ih _ still
    rw [List.replicate_succ, runCommands_cons _ next responding, last, taken, stepped]
    exact ⟨rfl, by simp [List.range_succ_eq_map, Function.comp_def]⟩

end Run

/-- Settles O41: any two blocks answer the load the same, after which they have the same engine. -/
theorem g256OutputsAreReproducible : Obligations.G256OutputsAreReproducible := by
  unfold Obligations.G256OutputsAreReproducible
  intro load is s t isLoad engine draws
  exact runCommands_answersSame .g256 (load :: is) (.inl ⟨load, rfl, isLoad⟩) engine draws

/-- Settles O43: `NEXT` on a seeded engine answers the output of the step and puts its next words in place. -/
theorem nextCommandsStepOneByOne : Obligations.NextCommandsStepOneByOne := by
  unfold Obligations.NextCommandsStepOneByOne
  exact ⟨runCommands_replicate stepsWords_next256, runCommands_replicate stepsWords_next128⟩

end Sys2Proof.Machine

/-! PROOFS. The commands of G128 (O19, O21, O24, O27, O29, O42), from the state each leaves and, for `SEEDE128`, its
draws. -/

namespace Sys2Proof.Machine

/-- Four shifts by 16 move every bit out of the word. -/
theorem eq_zero_of_shiftLeft_eq {x : Word} (fixed : x <<< 16 = x) : x = 0 :=
  calc x = x <<< 16 <<< 16 <<< 16 <<< 16 := by rw [fixed, fixed, fixed, fixed]
    _ = x <<< 64 := by simp only [← BitVec.shiftLeft_add]
    _ = 0 := BitVec.shiftLeft_eq_zero le_rfl

/-- The corner `(0, x)` of R184. -/
theorem step128_zero_left (x : Word) : step128 ⟨0, x⟩ = (0, ⟨x ^^^ x <<< 16, rotl x 37⟩) := by
  have rotated : rotl 0#64 24 = 0#64 := by decide
  have output : scr 0#64 = 0#64 := by decide
  simp [step128, rotated, output]

/-- V128-3, of `jump128` and `loadj128` (R191, R196). -/
theorem jump128_one_two : jump128 ⟨1, 2⟩ jumpTable128 = ⟨0x66fbd4be1df0a7b5, 0x830c3ddbb4aa3172⟩ := by decide +kernel

section Results
variable {s : State}

theorem exec_next128_answers {out : Word} (seeded : s.seeded128 = true) (answer : scr s.s128.s0 = out) :
    ∃ t, exec .next128 s = .next t ∧ t.phase = .responding (.data out) :=
  ⟨_, exec_next128_of_step seeded rfl, answer ▸ rfl⟩

variable (s)

theorem exec_loadj128_of_jump {w0 w1 : Word} {w : Words128} (jumped : jump128 ⟨w0, w1⟩ jumpTable128 = w) :
    exec (.loadj128 w0 w1) s = .next { s with s128 := w, seeded128 := true, phase := .responding .done } :=
  jumped ▸ rfl

theorem exec_seedm128_of_words {s0 : Word} {w : Words128} (derived : seedm128Words s0 = w) :
    exec (.seedm128 s0) s = .next { s with s128 := w, seeded128 := true, phase := .responding .done } := derived ▸ rfl

end Results

section Draws
variable {s : State}

theorem draw128_of_words {w0 w1 : Word} (d0 : drawAnswer s 0 = .ok w0) (d1 : drawAnswer s 1 = .ok w1) :
    draw128 (provider s) = (some ⟨w0, w1⟩, providerAfter s 2) := by
  rw [← providerAfter_zero, draw128, drawThen_of_ok d0, drawThen_of_ok d1]

theorem draw128_ends_at {k : Nat} (words : ∀ j < k, ∃ w, drawAnswer s j = .ok w) (failed : drawAnswer s k = .fail)
    (hk : k < 2) : draw128 (provider s) = (none, providerAfter s (k + 1)) := by
  rw [← providerAfter_zero, draw128]
  refine drawThen_ends_at words failed (Nat.zero_le k) fun after0 _ => ?_
  exact drawThen_ends_at words failed after0 fun after1 _ => absurd hk (by omega)

end Draws

/-- Settles O29: the two draws with no failure (`draw128_of_words`), and up to the first that fails (`draw128_ends_at`). -/
theorem seede128Result : Obligations.Seede128Result := by
  unfold Obligations.Seede128Result
  refine ⟨decode_encode_word .seede128, fun s w0 w1 d0 d1 => ?_, fun s k hk words failed => ?_⟩
  · exact execSeede128_drawn (draw128_of_words d0 d1)
  · exact exec_seede128_of_fail (draw128_ends_at words failed hk)

/-- Settles O42: any two blocks answer the load the same, after which they have the same engine. -/
theorem g128OutputsAreReproducible : Obligations.G128OutputsAreReproducible := by
  unfold Obligations.G128OutputsAreReproducible
  intro load is s t isLoad engine draws
  exact runCommands_answersSame .g128 (load :: is) (.inl ⟨load, rfl, isLoad⟩) engine draws

/-- Settles O19: the written-out step is `step128` with `scr` and `rotl` unfolded; from `(0, x)` word 0 stays 0 only if
the shift by 16 leaves `x` as it is. -/
theorem next128Result : Obligations.Next128Result := by
  unfold Obligations.Next128Result
  refine ⟨decode_encode_word .next128, fun s a b seeded words => ?_, fun s unseeded => ?_, fun s seeded words => ?_,
    fun s x seeded words ne => ?_, step128_zero_left 1, fun s seeded words => ?_⟩
  · exact exec_next128_of_step seeded (words ▸ rfl)
  · exact exec_of_unseeded_explicit (i := .next128) rfl unseeded
  · obtain ⟨-, -, -, zero⟩ := allZeroIsTheFixedPoint
    exact (zero s seeded words).1
  · refine ⟨_, exec_next128_of_step seeded (words ▸ step128_zero_left x), rfl, fun same => ?_⟩
    have word0 : x ^^^ x <<< 16 = 0 := (Words128.mk.inj same).1
    exact ne (eq_zero_of_shiftLeft_eq (BitVec.xor_eq_zero_iff.mp word0).symm)
  · exact exec_next128_of_step seeded (words ▸ by decide)

/-- Settles O21: `jumpTable128` and `ljumpTable128` are the tables written out; the kernel evaluates the examples' jumps. -/
theorem jumpsOfG128Result : Obligations.JumpsOfG128Result := by
  unfold Obligations.JumpsOfG128Result
  have ljumped : jump128 ⟨1, 2⟩ ljumpTable128 = ⟨0x3ce44494d47d323a, 0x2aa25ca8d61de643⟩ := by decide +kernel
  refine ⟨fun s seeded => ?_, fun s unseeded => ?_, fun s seeded words => ?_⟩
  · exact ⟨exec_jump128_of_jump seeded rfl, exec_ljump128_of_jump seeded rfl⟩
  · exact ⟨exec_of_unseeded_explicit (i := .jump128) rfl unseeded,
      exec_of_unseeded_explicit (i := .ljump128) rfl unseeded⟩
  · exact ⟨exec_jump128_of_jump seeded (words ▸ jump128_one_two), exec_ljump128_of_jump seeded (words ▸ ljumped)⟩

/-- Settles O24: the all-zero operands by `jump128_zero`, the example by evaluation. -/
theorem loadj128Result : Obligations.Loadj128Result := by
  unfold Obligations.Loadj128Result
  refine ⟨fun d0 d1 d2 d3 => decode_encode_word (.loadj128 d0 d1) d0 d1 d2 d3, fun s w0 w1 => ?_, fun s => ?_,
    fun s => ?_, fun s seeded words => ?_⟩
  · exact exec_loadj128_of_jump s rfl
  · exact exec_loadj128_of_jump s (jump128_zero jumpTable128)
  · exact exec_loadj128_of_jump s jump128_one_two
  · exact exec_next128_answers seeded (by rw [words]; decide)

/-- Settles O27: the derivation of R202 with `rotl` unfolded; the example by evaluation. -/
theorem seedm128Result : Obligations.Seedm128Result := by
  unfold Obligations.Seedm128Result
  refine ⟨fun d0 d1 d2 d3 => decode_encode_word (.seedm128 d0) d0 d1 d2 d3, fun s s0 => ?_, seedm128Words_ne_zero,
    fun s => ?_⟩
  · exact exec_seedm128_of_words s rfl
  · exact exec_seedm128_of_words s (by decide)

end Sys2Proof.Machine

/-! PROOFS. The error rules (O6, O31, O32, O33), from what a command in error has done, by the code of its response; and
worker streams (O44). -/

namespace Sys2Proof.Machine

section Errors
variable {i : Instr} {s t : State} {c : Command}

theorem transact_of_refused {e : DecodeReject} (refused : decode c = .error e) :
    transact c s = .next (takeResponse (raise .illegalCmd c.word s)) := by rw [transact, refused]

theorem transact_of_decoded (decoded : decode c = .ok i) (effect : exec i s = .next t) :
    transact c s = .next (takeResponse t) := by simp only [transact, decoded, effect]

/-- A transaction takes the response of an illegal word's error or of the decoded command. -/
theorem transact_cases (h : transact c s = .next t) :
    (∃ e, decode c = .error e ∧ t = takeResponse (raise .illegalCmd c.word s)) ∨
      ∃ i u, decode c = .ok i ∧ exec i s = .next u ∧ t = takeResponse u := by
  cases decoded : decode c with
  | error e =>
    rw [transact_of_refused decoded] at h
    exact .inl ⟨e, rfl, (Host.Outcome.next.inj h).symm⟩
  | ok i =>
    obtain ⟨u, effect⟩ := exec_answers_next i s
    rw [transact_of_decoded decoded effect] at h
    exact .inr ⟨i, u, rfl, effect, (Host.Outcome.next.inj h).symm⟩

/-- A command in error has raised `UNSEEDED` or is a `SEEDE` with a failed draw; the code of its response says which. -/
theorem exec_error_cases {code : BitVec 4} (h : exec i s = .next t) (error : t.phase = .responding (.error code)) :
    (code = 2 ∧ needsSeed i = true ∧ engineSeeded i.engine s = false ∧ t = raise .unseeded (encode i).word s) ∨
    (code = 3 ∧ i = .seede256 ∧ ∃ p, t = entropyFail256 (setProvider p s)) ∨
    (code = 3 ∧ i = .seede128 ∧ ∃ p, t = entropyFail128 (setProvider p s)) := by
  cases exec_effect h with
  | onG256 w b r p response | onG128 w b r p response => exact absurd (Phase.responding.inj error) (response code)
  | unseeded needs isUnseeded => cases error; exact .inl ⟨rfl, needs, isUnseeded, rfl⟩
  | drawFails256 p instr => cases error; exact .inr (.inl ⟨rfl, instr, p, rfl⟩)
  | drawFails128 p instr => cases error; exact .inr (.inr ⟨rfl, instr, p, rfl⟩)

end Errors

/-- Settles O31: `raise` by whether an error is recorded, and a code's value does not change when it is zero-extended. -/
theorem raiseRecordsTheFirstError : Obligations.RaiseRecordsTheFirstError := by
  unfold Obligations.RaiseRecordsTheFirstError
  refine ⟨fun e c s first => ?_, fun e c s later => ?_, fun s => ⟨rfl, rfl⟩, rfl, rfl, rfl, fun code => ⟨rfl, ?_⟩⟩
  · rw [raise_eq, recordError_of_no_err _ _ _ first]; rfl
  · rw [raise_eq, recordError_of_err _ _ _ later]; rfl
  · simp only [rspData, BitVec.toNat_setWidth]
    omega

section Illegal
variable {s : State} {c : Command} {rest : List HostInput}
  (illegal : c.word.extractLsb' 4 3 ≠ 0#3 ∨ 0xA ≤ (c.word.extractLsb' 0 4).toNat)
include illegal

theorem decode_of_illegal : ∃ e, decode c = .error e := by
  by_cases rsv : c.word.extractLsb' 4 3 = 0#3
  · exact ⟨_, decode_of_op_undefined rsv (illegal.resolve_left (not_not.mpr rsv))⟩
  · exact ⟨_, decode_of_rsv_ne_zero rsv⟩

/-- The step of an illegal word makes the record, if it is the first error, and gives the response (R234). -/
theorem step_of_illegal (idle : s.phase = .idle) (next : s.hostIn = .command c :: rest) : step s = .next { s with
    hostIn := rest
    taken := .error 1 :: s.taken
    err := true
    ecode := if s.err then s.ecode else 1
    ecmd := if s.err then s.ecmd else c.word } := by
  obtain ⟨e, refused⟩ := decode_of_illegal illegal
  rw [step_command idle next, transact_of_refused refused, raise_explicit, takeResponse_of_responding rfl]
  simp [errorCode, idle]

end Illegal

/-- Settles O6: `step_of_illegal`, and the example is of a word with `OP = 0xA`. -/
theorem illegalCommandOnlyRecordsTheError : Obligations.IllegalCommandOnlyRecordsTheError := by
  unfold Obligations.IllegalCommandOnlyRecordsTheError
  exact ⟨fun s c rest idle next illegal => step_of_illegal illegal idle next,
    fun d0 d1 d2 d3 => (step_of_illegal (c := ⟨0x0A, d0, d1, d2, d3⟩) (.inr le_rfl) rfl rfl).trans rfl⟩

/-- Settles O32: the six commands raise `UNSEEDED` (`exec_of_unseeded_explicit`), and code 2 is no other error's
(`exec_error_cases`). -/
theorem unseededIsRaisedExactlyBySteppingAnUnseededEngine :
    Obligations.UnseededIsRaisedExactlyBySteppingAnUnseededEngine := by
  unfold Obligations.UnseededIsRaisedExactlyBySteppingAnUnseededEngine
  refine ⟨fun i s needs unseeded => exec_of_unseeded_explicit needs unseeded, fun i s t h error => ?_,
    fun d0 d1 d2 d3 => ?_⟩
  · obtain ⟨-, needs, unseeded, -⟩ | ⟨code, -⟩ | ⟨code, -⟩ := exec_error_cases h error
    · exact ⟨needs, unseeded⟩
    · cases code
    · cases code
  · exact (step_command rfl rfl).trans
      (transact_of_decoded (i := .next256) (decode_encode_word .next256 d0 d1 d2 d3) (exec_of_unseeded_explicit rfl rfl))

/-- Settles O33: an illegal word raises code 1, and a command's error is one of `exec_error_cases`; the select bit of its
word names the engine that a failed draw unseeds. -/
theorem errorsArePrecise : Obligations.ErrorsArePrecise := by
  unfold Obligations.ErrorsArePrecise
  intro s t c rest code idle next stepped error
  rw [step_command idle next] at stepped
  obtain ⟨e, -, rfl⟩ | ⟨i, u, decoded, effect, rfl⟩ := transact_cases stepped
  · obtain rfl : 1 = code := by simpa [raise, errorCode] using error
    simp [raise]
  · obtain ⟨answer, responding⟩ := Effect_responds (exec_effect effect)
    obtain rfl : answer = .error code := by
      simpa [takeResponse_of_responding responding, exec_keeps_taken effect] using error
    have select := decode_engine decoded
    rw [takeResponse_of_responding responding, select]
    obtain ⟨rfl, -, -, rfl⟩ | ⟨rfl, rfl, p, rfl⟩ | ⟨rfl, rfl, p, rfl⟩ := exec_error_cases effect responding
    · simp [raise]
    · simp [entropyFail256, raise, Instr.engine]
    · simp [entropyFail128, raise, Instr.engine]

section Workers
variable {i : Instr} {s t : State} {r : Response}

theorem stepsWords_jump256 :
    StepsWords .jump256 State.s256 State.seeded256 (fun w => jump256 w jumpTable256) fun _ => .done :=
  fun _ seeded => ⟨_, exec_jump256_of_jump seeded rfl, rfl, fun _ => ⟨rfl, seeded⟩⟩

theorem stepsWords_jump128 :
    StepsWords .jump128 State.s128 State.seeded128 (fun w => jump128 w jumpTable128) fun _ => .done :=
  fun _ seeded => ⟨_, exec_jump128_of_jump seeded rfl, rfl, fun _ => ⟨rfl, seeded⟩⟩

/-- After a load that seeds its engine, worker `j` has the words loaded, jumped `j` times. -/
theorem runCommands_workerProgram {W : Type} {words : State → W} {seeded : State → Bool} {jump : W → W}
    {answer : W → Response} (load : exec i s = .next t) (responding : t.phase = .responding r)
    (jumps : StepsWords (jumpOf i.engine) words seeded jump answer)
    (loaded : seeded { t with phase := .idle, taken := r :: s.taken } = true) (j : Nat) :
    words (runCommands (workerProgram i j) s) = jump^[j] (words { t with phase := .idle, taken := r :: s.taken }) := by
  rw [workerProgram, runCommands_cons _ load responding]
  exact (runCommands_replicate jumps j _ loaded).1

end Workers

/-- Settles O44: each load seeds its engine with the words that the first jumps start from. -/
theorem workerStreamsAreJumpsOfTheBase : Obligations.WorkerStreamsAreJumpsOfTheBase := by
  unfold Obligations.WorkerStreamsAreJumpsOfTheBase
  refine ⟨fun j s w0 w1 w2 w3 => ⟨?_, ?_, ?_, ?_⟩, fun j s w0 w1 => ⟨?_, ?_, ?_, ?_⟩⟩
  · exact runCommands_workerProgram (i := .load256 w0 w1 w2 w3) rfl rfl stepsWords_jump256 rfl j
  · exact runCommands_workerProgram (exec_loadj256_of_jump s rfl) rfl stepsWords_jump256 rfl j
  · exact runCommands_workerProgram (exec_seedc256_of_jump s rfl) rfl stepsWords_jump256 rfl j
  · exact runCommands_workerProgram (exec_seedm256_of_words s rfl) rfl stepsWords_jump256 rfl j
  · exact runCommands_workerProgram (i := .load128 w0 w1) rfl rfl stepsWords_jump128 rfl j
  · exact runCommands_workerProgram (exec_loadj128_of_jump s rfl) rfl stepsWords_jump128 rfl j
  · exact runCommands_workerProgram (exec_seedc128_of_jump s rfl) rfl stepsWords_jump128 rfl j
  · exact runCommands_workerProgram (exec_seedm128_of_words s rfl) rfl stepsWords_jump128 rfl j

end Sys2Proof.Machine

/-! PROOFS. What every clock edge and step without a reset keeps (O34, O36, O38): the error record once made, and the
invariant. -/

namespace Sys2Proof.Machine

/-- Going from `s` to `t` leaves the error record as it is once it is made (10_state.md R26), and keeps the invariant. -/
structure Keeps (s t : State) : Prop where
  record : s.err = true → t.err = true ∧ t.ecode = s.ecode ∧ t.ecmd = s.ecmd
  inv : s.Inv → t.Inv

/-- What a state holds of past commands: the error record and the responses taken. -/
def history (s : State) : Bool × BitVec 4 × CmdWord × List Response := (s.err, s.ecode, s.ecmd, s.taken)

/-- Whether an error can be raised by a command with this word (60_exceptions.md R230). -/
def canRaise : ErrorCause → CmdWord → Bool
  | .illegalCmd, c => !legalWord c
  | .unseeded, c => isSteppingWord c
  | .entropyFail, c => isEntropyWord c

theorem recordOk_of_canRaise {e : ErrorCause} {c : CmdWord} (s : State) (raises : canRaise e c = true) :
    recordOk { s with err := true, ecode := errorCode e, ecmd := c } = true := by
  cases e <;> simpa [recordOk, errorCode, canRaise] using raises

theorem isSteppingWord_encode {i : Instr} (needs : needsSeed i = true) : isSteppingWord (encode i).word = true := by
  cases i
  case next256 | jump256 | ljump256 | next128 | jump128 | ljump128 => rfl
  all_goals cases needs

theorem responseOk_error (e : ErrorCause) : responseOk (.error (errorCode e)) = true := by cases e <;> rfl

theorem responseOk_of_not_error {r : Response} (response : ∀ code, r ≠ .error code) : responseOk r = true := by
  cases r with
  | done | data => rfl
  | error code => exact absurd rfl (response code)

theorem inv_applyReset {s : State} (inv : s.Inv) : (applyReset s).Inv :=
  have ⟨_, _, taken⟩ := inv
  ⟨rfl, rfl, taken⟩

section Keeping
variable {s t u : State}

theorem Keeps.refl (s : State) : Keeps s s := ⟨fun err => ⟨err, rfl, rfl⟩, id⟩

theorem Keeps.trans (first : Keeps s t) (second : Keeps t u) : Keeps s u where
  record err :=
    have ⟨err', ecode, ecmd⟩ := first.record err
    have ⟨err'', ecode', ecmd'⟩ := second.record err'
    ⟨err'', ecode'.trans ecode, ecmd'.trans ecmd⟩
  inv := second.inv ∘ first.inv

/-- A change of words, seeded bits, provider and phase, to a command in progress that can run. -/
theorem keeps_of_history (same : history t = history s) (phase : phaseOk s = true → phaseOk t = true) : Keeps s t := by
  simp only [history, Prod.mk.injEq] at same
  obtain ⟨err, ecode, ecmd, taken⟩ := same
  refine ⟨fun made => ⟨err.trans made, ecode, ecmd⟩, fun ⟨record, ok, responses⟩ => ⟨?_, phase ok, taken ▸ responses⟩⟩
  simpa [recordOk, err, ecode, ecmd] using record

/-- Raising an error that the command can raise, on the block or with a seeded bit cleared first. -/
theorem keeps_raise {e : ErrorCause} {c : CmdWord} (same : history t = history s) (raises : canRaise e c = true) :
    Keeps s (raise e c t) := by
  refine .trans (t := respond (.error (errorCode e)) t) (keeps_of_history same fun _ => responseOk_error e) ?_
  obtain ⟨-, kept⟩ | ⟨none, made⟩ := recordError_cases (errorCode e) c t
  · rw [raise_eq, kept]; exact .refl _
  · rw [raise_eq, made]
    exact ⟨fun err => absurd (none.symm.trans err) nofun, fun ⟨_, ok, responses⟩ =>
      ⟨recordOk_of_canRaise (respond _ t) raises, ok, responses⟩⟩

theorem keeps_takeResponse (s : State) : Keeps s (takeResponse s) := by
  obtain ⟨r, responding, taken⟩ | ⟨-, same⟩ := takeResponse_cases s
  · rw [taken]
    refine ⟨fun err => ⟨err, rfl, rfl⟩, fun ⟨record, ok, responses⟩ => ⟨record, rfl, ?_⟩⟩
    simp only [phaseOk, responding] at ok
    simp [ok, responses]
  · rw [same]; exact .refl s

theorem keeps_exec {i : Instr} (h : exec i s = .next t) : Keeps s t := by
  cases exec_effect h with
  | onG256 w b r p response | onG128 w b r p response =>
    exact keeps_of_history rfl fun _ => responseOk_of_not_error response
  | unseeded needs => exact keeps_raise rfl (isSteppingWord_encode needs)
  | drawFails256 p | drawFails128 p => exact keeps_raise rfl rfl

theorem keeps_acceptCommand (c : Command) (s : State) : Keeps s (acceptCommand c s) := by
  unfold acceptCommand
  cases decoded : decode c with
  | error e => exact keeps_raise rfl (by simp [canRaise, decode_error decoded])
  | ok i =>
    obtain whole | ⟨ph, started, ok⟩ := startCommand_cases i s
    · exact keeps_exec whole
    · simp only [started]
      exact keeps_of_history rfl fun _ => ok

/-- A jump goes on as it was started; its last iteration responds. -/
theorem keeps_jumpCycle256 {load : Bool} {tab : JumpKind} {idx : Fin 256} {acc : Words256}
    (jumping : s.phase = .jumping256 load tab idx acc) : Keeps s (jumpCycle256 load tab idx acc s) := by
  obtain ⟨_, more⟩ | ⟨-, last⟩ := jumpCycle256_cases load tab idx acc s
  · rw [more]; exact keeps_of_history rfl (by simp [phaseOk, jumping])
  · rw [last]; exact keeps_of_history rfl fun _ => rfl

theorem keeps_jumpCycle128 {load : Bool} {tab : JumpKind} {idx : Fin 128} {acc : Words128}
    (jumping : s.phase = .jumping128 load tab idx acc) : Keeps s (jumpCycle128 load tab idx acc s) := by
  obtain ⟨_, more⟩ | ⟨-, last⟩ := jumpCycle128_cases load tab idx acc s
  · rw [more]; exact keeps_of_history rfl (by simp [phaseOk, jumping])
  · rw [last]; exact keeps_of_history rfl fun _ => rfl

/-- A word that is not the fourth leaves fewer than four. -/
theorem keeps_wordDrawn256 {got : List Word} (drawing : s.phase = .drawing256 true got) (w : Word) :
    Keeps s (wordDrawn256 got w s) := by
  obtain ⟨_, _, _, -, last⟩ | ⟨notLast, more⟩ := wordDrawn256_cases got w s
  · rw [last]; exact keeps_of_history rfl fun _ => rfl
  · rw [more]; refine keeps_of_history rfl fun ok => ?_
    have fewer : got.length < 4 := by simpa [phaseOk, drawing] using ok
    have stillFewer : (got ++ [w]).length < 4 := by rw [List.length_append, List.length_singleton]; omega
    simpa [phaseOk] using stillFewer

theorem keeps_wordDrawn128 {got : List Word} (drawing : s.phase = .drawing128 true got) (w : Word) :
    Keeps s (wordDrawn128 got w s) := by
  obtain ⟨_, -, last⟩ | ⟨notLast, more⟩ := wordDrawn128_cases got w s
  · rw [last]; exact keeps_of_history rfl fun _ => rfl
  · rw [more]; refine keeps_of_history rfl fun ok => ?_
    have fewer : got.length < 2 := by simpa [phaseOk, drawing] using ok
    have stillFewer : (got ++ [w]).length < 2 := by rw [List.length_append, List.length_singleton]; omega
    simpa [phaseOk] using stillFewer

section Edge
variable {p : PortIn} (noReset : p.rst = false)
include noReset

/-- An edge of `SEEDE256` waits, raises `ent_req`, fails or draws a word. -/
theorem keeps_clockEdge_drawing256 {req : Bool} {got : List Word} (drawing : s.phase = .drawing256 req got) :
    Keeps s (clockEdge p s) := by
  cases req with
  | false =>
    rw [clockEdge_raises256 noReset drawing]
    exact keeps_of_history rfl (by simp +contextual [phaseOk, drawing])
  | true =>
    cases ack : p.entAck with
    | false => rw [clockEdge_waits noReset (entReq_eq_true_iff.mpr ⟨got, .inl drawing⟩) ack]; exact .refl s
    | true =>
      rw [clockEdge_answers256 noReset drawing ack]
      split
      · exact keeps_raise rfl rfl
      · exact keeps_wordDrawn256 drawing _

theorem keeps_clockEdge_drawing128 {req : Bool} {got : List Word} (drawing : s.phase = .drawing128 req got) :
    Keeps s (clockEdge p s) := by
  cases req with
  | false =>
    rw [clockEdge_raises128 noReset drawing]
    exact keeps_of_history rfl (by simp +contextual [phaseOk, drawing])
  | true =>
    cases ack : p.entAck with
    | false => rw [clockEdge_waits noReset (entReq_eq_true_iff.mpr ⟨got, .inr drawing⟩) ack]; exact .refl s
    | true =>
      rw [clockEdge_answers128 noReset drawing ack]
      split
      · exact keeps_raise rfl rfl
      · exact keeps_wordDrawn128 drawing _

theorem keeps_clockEdge (s : State) : Keeps s (clockEdge p s) := by
  cases phase : s.phase with
  | idle =>
    cases valid : p.cmdValid with
    | false => rw [clockEdge_idles noReset phase valid]; exact .refl s
    | true => rw [clockEdge_accepts noReset phase valid]; exact keeps_acceptCommand _ s
  | loading256 w => rw [clockEdge_loading256 noReset phase]; exact keeps_of_history rfl fun _ => rfl
  | loading128 w => rw [clockEdge_loading128 noReset phase]; exact keeps_of_history rfl fun _ => rfl
  | jumping256 load tab idx acc => rw [clockEdge_jumping256 noReset phase]; exact keeps_jumpCycle256 phase
  | jumping128 load tab idx acc => rw [clockEdge_jumping128 noReset phase]; exact keeps_jumpCycle128 phase
  | drawing256 req got => exact keeps_clockEdge_drawing256 noReset phase
  | drawing128 req got => exact keeps_clockEdge_drawing128 noReset phase
  | responding r =>
    cases ready : p.rspReady with
    | false => rw [clockEdge_holds noReset phase ready]; exact .refl s
    | true =>
      rw [clockEdge_takes noReset phase ready, ← takeResponse_of_responding phase]
      exact keeps_takeResponse s

end Edge

theorem keeps_transact {c : Command} (h : transact c s = .next t) : Keeps s t := by
  obtain ⟨e, refused, rfl⟩ | ⟨i, u, -, effect, rfl⟩ := transact_cases h
  · exact (keeps_raise rfl (by simp [canRaise, decode_error refused])).trans (keeps_takeResponse _)
  · exact (keeps_exec effect).trans (keeps_takeResponse u)

/-- The provider and the host's list are outside what is kept. -/
theorem keeps_systemEdge (inBlock : s.phase ≠ .idle) : Keeps s (systemEdge s) := by
  obtain ⟨p, q, noReset, edge⟩ := systemEdge_in_progress inBlock
  have drawn : Keeps s (setProvider q s) := keeps_of_history rfl id
  rw [edge]
  exact drawn.trans (keeps_clockEdge noReset _)

theorem keeps_step (h : step s = .next t) (noReset : s.phase = .idle → s.hostIn.head? ≠ some .reset) : Keeps s t := by
  by_cases idle : s.phase = .idle
  · match next : s.hostIn with
    | [] =>
      rw [step_no_input idle next] at h
      cases h; exact .refl s
    | .reset :: rest => exact absurd (by rw [next]; rfl) (noReset idle)
    | .command c :: rest =>
      have offered : Keeps s { s with hostIn := rest } := keeps_of_history rfl id
      exact offered.trans (keeps_transact (step_command idle next ▸ h))
  · rw [step_in_progress idle] at h
    cases h; exact keeps_systemEdge idle

end Keeping

/-- Settles O34: steps and edges without a reset keep the record (`keeps_step`, `keeps_clockEdge`). -/
theorem errorRecordIsSticky : Obligations.ErrorRecordIsSticky := by
  unfold Obligations.ErrorRecordIsSticky
  exact ⟨fun s t made stepped noReset => (keeps_step stepped noReset).record made,
    fun p s made noReset => (keeps_clockEdge noReset s).record made⟩

/-- Settles O36: a step is a reset, which makes the invariant hold, or keeps it (`keeps_step`). -/
theorem everyStepKeepsTheInvariant : Obligations.EveryStepKeepsTheInvariant := by
  unfold Obligations.EveryStepKeepsTheInvariant
  intro s t inv stepped
  by_cases reset : s.phase = .idle ∧ s.hostIn.head? = some .reset
  · obtain ⟨idle, head⟩ := reset
    obtain ⟨rest, next⟩ := List.head?_eq_some_iff.mp head
    rw [step_reset idle next] at stepped
    cases stepped
    exact inv_applyReset inv
  · exact (keeps_step stepped fun idle head => reset ⟨idle, head⟩).inv inv

/-- Settles O38: with `rst = 1` the edge is a reset, and otherwise `keeps_clockEdge`. -/
theorem everyClockEdgeKeepsTheInvariant : Obligations.EveryClockEdgeKeepsTheInvariant := by
  unfold Obligations.EveryClockEdgeKeepsTheInvariant
  intro p s inv
  cases reset : p.rst with
  | false => exact (keeps_clockEdge reset s).inv inv
  | true =>
    rw [clockEdge_resets reset]
    exact inv_applyReset inv

end Sys2Proof.Machine

/-! PROOFS. Reset (O46): what an idle block drives, and the `STATUS` that a reset leaves. -/

namespace Sys2Proof.Machine

section Idle
variable {s : State} (idle : s.phase = .idle)
include idle

theorem jumpRunning_of_idle : jumpRunning s = false := by simp [jumpRunning, idle]

theorem offered_of_idle : offered s = none := by simp [offered, idle]

theorem entReq_of_idle : entReq s = false := by simp [entReq, idle]

theorem cmdReady_of_idle : cmdReady false s = true := by simp [cmdReady, busy_of_idle idle]

end Idle

/-- 70_reset_and_hazards.md R260. -/
theorem status_applyReset (s : State) : status (applyReset s) = 0 := by
  simp [status, busy_of_idle (applyReset_phase s)]

/-- `cmd_ready` is low while `rst` is high (70_reset_and_hazards.md R260). -/
theorem cmdReady_in_reset (s : State) : cmdReady true s = false := by simp [cmdReady]

/-- Settles O46: the edge (`clockEdge_resets`) and the step (`step_reset`) are `applyReset`, which leaves the block idle. -/
theorem resetClearsTheBlock : Obligations.ResetClearsTheBlock := by
  unfold Obligations.ResetClearsTheBlock
  constructor
  · intro p s reset
    have idle : (applyReset s).phase = .idle := applyReset_phase s
    rw [clockEdge_resets reset]
    exact ⟨applyReset_seeded256 s, applyReset_seeded128 s, status_applyReset s, jumpRunning_of_idle idle,
      offered_of_idle idle, entReq_of_idle idle, fun _ => applyReset_taken s, cmdReady_in_reset s, cmdReady_of_idle idle⟩
  · intro s rest idle next
    exact ⟨_, step_reset idle next, applyReset_seeded256 _, applyReset_seeded128 _, status_applyReset _,
      applyReset_phase _, applyReset_hostIn _, applyReset_taken _⟩

end Sys2Proof.Machine
